-- ==== Sys2Proof/Word.lean ====
section
/-! DEFINITION. The word, byte and address types of the engine (spec 00_scope.md R7, R9). -/

namespace Sys2Proof

/-- A word: an unsigned 32-bit integer (R7). -/
abbrev Word := BitVec 32

/-- A byte (R9). -/
abbrev Byte := BitVec 8

/-- A byte offset into the 1 KiB register window, `0x000 .. 0x3FF` (R61). -/
abbrev Offset := BitVec 10

end Sys2Proof
end

