-- ==== Sys2Proof/Syntax.lean ====
section
/-! DEFINITION. The seven commands (spec 30_encoding.md R92), one constructor per row of the opcode table. -/

namespace Sys2Proof

/-- The commands of the engine. They have no operand fields (R94). -/
inductive Instr where
  /-- INIT (R191): seed the chaining value. -/
  | init
  /-- COMPRESS (R159): compress the block buffer into the chaining value. -/
  | compress
  /-- HASH (R194): hash a message in memory. -/
  | hash
  /-- EXPAND (R142): expand the block buffer. -/
  | expand
  /-- LOADR (R156): load the round registers from the chaining value. -/
  | loadr
  /-- ROUND (R157): perform one round. -/
  | round
  /-- FOLD (R158): fold the round registers into the chaining value. -/
  | fold
  deriving DecidableEq, Repr

end Sys2Proof
end

