-- ==== Sys2Proof/WellFormed.lean ====
section
/-! DEFINITION. What a well-formed command word is (spec 30_encoding.md R90, R92, R93). A command has no operand
fields (R94), so every term of `Instr` is well formed; the checks are on the 32-bit word. -/

namespace Sys2Proof

/-- RSVD, bits 31:4, is zero (R90). -/
def reservedZero (c : Word) : Bool := c.extractLsb' 4 28 == 0

/-- CMD, bits 3:0, is one of the seven assigned numbers (R92); 0x0 and 0x8 .. 0xF are not (R93). -/
def commandAssigned (c : Word) : Bool :=
  1 ≤ (c.extractLsb' 0 4).toNat && (c.extractLsb' 0 4).toNat ≤ 7

/-- A word that is a command (R91, R93). -/
def wellFormedWord (c : Word) : Bool := reservedZero c && commandAssigned c

/-- Well-formedness of a command as a term: there is no field to restrict (R94). -/
def Instr.wellFormed : Instr → Bool
  | .init => true
  | .compress => true
  | .hash => true
  | .expand => true
  | .loadr => true
  | .round => true
  | .fold => true

end Sys2Proof
end

