-- ==== Sys2Proof/Decode.lean ====
section
/-! DEFINITION. Decoding of a word written to CTRL, and the encoder (spec 30_encoding.md R90 to R93). -/

namespace Sys2Proof

/-- Why a word is not a command (R91). Both report ILLEGAL_CMD (R223). -/
inductive DecodeError where
  /-- RSVD, bits 31:4, is not zero. -/
  | reservedBits
  /-- CMD is 0x0 or 0x8 .. 0xF. -/
  | unassignedCommand
  deriving DecidableEq, Repr

/-- The opcode map (R91, R92): CMD to command. -/
def commandOf (cmd : Nat) : Option Instr :=
  match cmd with
  | 1 => some .init
  | 2 => some .compress
  | 3 => some .hash
  | 4 => some .expand
  | 5 => some .loadr
  | 6 => some .round
  | 7 => some .fold
  | _ => none

/-- Decoding uses all 32 bits of the word (R91): RSVD first, then CMD. -/
def decode (c : Word) : Except DecodeError Instr :=
  if c.extractLsb' 4 28 ≠ 0 then .error .reservedBits
  else
    match commandOf (c.extractLsb' 0 4).toNat with
    | some i => .ok i
    | none => .error .unassignedCommand

/-- CMD of each command (R92). -/
def opcode : Instr → BitVec 4
  | .init => 0x1
  | .compress => 0x2
  | .hash => 0x3
  | .expand => 0x4
  | .loadr => 0x5
  | .round => 0x6
  | .fold => 0x7

/-- The command word (R90): RSVD = 0 in bits 31:4, CMD in bits 3:0. -/
def encode (i : Instr) : Word := (0 : BitVec 28) ++ opcode i

/-- What the decoder reads from the opcode table's numbering: bit 0 of `w` is bit 0 of the one 32-bit word, and bits
at and above `nbits` are 0. No command has a bit above bit 31 (R90, R95). -/
def decodeTableWord (nbits w : Nat) : Option Instr :=
  if w % 2 ^ nbits < 2 ^ 32 then (decode (BitVec.ofNat 32 (w % 2 ^ nbits))).toOption else none

end Sys2Proof
end

