-- ==== Sys2Proof/Config.lean ====
section
/-! DEFINITION. What an implementation or its platform fixes, and the free values the spec leaves open
(spec 93_implementation_defined.md). None has a body, so nothing can be proved of the value of one. -/

namespace Sys2Proof

/-- A word the spec leaves as "any 32-bit value" (U1, U3): draw number `n` of the run. -/
opaque Config.freeWord : Nat → Word

/-- A round counter the spec leaves as "any value in 0..64" (U2, U3): draw number `n` of the run. -/
opaque Config.freeRound : Nat → Fin 65

/-- The free choice among the values a byte held (U4, U9): draw number `n` of the run. -/
opaque Config.freeIndex : Nat → Nat

/-- The platform's BASE in KiB (R6, U10). -/
opaque Config.baseKiB : Nat

/-- BASE, the host-bus address of the register window, 1 KiB aligned (R6, R60). -/
def Config.base : Nat := 1024 * Config.baseKiB

/-- HOST_BYTE_LANES (R6, R63, U8): bus lane `k` carries byte `hostByteLanes k` of a register, byte 0 its bits 7:0. -/
opaque Config.hostByteLanes : Equiv.Perm (Fin 4)

end Sys2Proof
end

