-- ==== Sys2Proof/Machine/Constants.lean ====
section
/-! DEFINITION. The constants of the engine: the IV, the ID value, the round constants, and the byte an unwritten
address of the message space reads as. -/

namespace Sys2Proof.Machine

/-- The initialization vector (R190). The spec takes its digits from general knowledge (log 19). -/
def iv : Vector Word 8 :=
  #v[0x7380166F, 0x4914B2B9, 0x172442D7, 0xDA8A0600, 0xA96F30BC, 0x163138AA, 0xE38DEE4D, 0xB0FB0E4E]

/-- The value of the read-only ID register (R33). -/
def idValue : Word := 0x534D3301

/-- The round constant T(j) for j in 0..63 (R153). -/
def roundConstant (j : Nat) : Word := if j < 16 then 0x79CC4519 else 0x7A879D8A

/-- DESIGN CHOICE (log 6): what an address of the message space that nothing has stored to reads as. -/
def unlistedByte : Byte := 0x00

end Sys2Proof.Machine
end

