-- ==== Sys2Proof/Machine/State.lean ====
section
/-! DEFINITION. The state of the machine as plain data: the engine's own state, which is the table of spec
10_state.md R20, and the surroundings its rules speak of (message space, platform, reset input, what the outside world
does next). INVENTORY.md lists every field with its rule and reset value. -/

namespace Sys2Proof.Machine

/-- The HASH progress (R36): the index of the block being compressed and the message bytes read so far. -/
structure HashProgress where
  /-- the index k of the block being compressed -/
  block : Nat
  /-- the message bytes read so far, in order -/
  bytes : List Byte
  deriving DecidableEq, Repr

/-- No progress: what reset leaves (R40) and every command starts from. -/
def HashProgress.start : HashProgress := { block := 0, bytes := [] }

/-- The engine's architectural state: exactly R20. STATUS.BUSY is `Engine.busy`. -/
structure Engine where
  /-- V[0..7], the chaining value (R21) -/
  v : Vector Word 8
  /-- BLK[0..15], the block buffer (R22) -/
  blk : Vector Word 16
  /-- R[0..7] = A..H, the round registers (R23) -/
  r : Vector Word 8
  /-- W[0..67], the expanded words (R24) -/
  w : Vector Word 68
  /-- WP[0..63], the W-prime words (R25) -/
  wp : Vector Word 64
  /-- J, the round counter (R26) -/
  j : BitVec 7
  /-- MSG_ADDR (R27) -/
  msgAddr : Word
  /-- MSG_LEN (R28) -/
  msgLen : Word
  /-- STATUS.DONE (R30) -/
  done : Bool
  /-- STATUS.ERR (R30) -/
  err : Bool
  /-- STATUS.OVR (R30) -/
  ovr : Bool
  /-- STATUS.ERRCODE (R30) -/
  errCode : BitVec 4
  /-- INTEN.DONE_IE (R32) -/
  doneIE : Bool
  /-- INTEN.ERR_IE (R32) -/
  errIE : Bool
  /-- the pending command word, hidden (R36, R222) -/
  pending : Option Word
  /-- the HASH progress, hidden (R36) -/
  progress : HashProgress
  deriving DecidableEq, Repr

/-- STATUS.BUSY: a command is pending (R36). -/
def Engine.busy (e : Engine) : Bool := e.pending.isSome

/-- The engine's reset values (R40, R250). -/
def Engine.reset : Engine where
  v := iv
  blk := Vector.replicate 16 0
  r := Vector.replicate 8 0
  w := Vector.replicate 68 0
  wp := Vector.replicate 64 0
  j := 64
  msgAddr := 0
  msgLen := 0
  done := false
  err := false
  ovr := false
  errCode := 0
  doneIE := false
  errIE := false
  pending := none
  progress := HashProgress.start

/-- The registers of the window (R35). -/
inductive Reg where
  | ctrl
  | status
  | inten
  | msgAddr
  | msgLen
  | v (i : Fin 8)
  | blk (i : Fin 16)
  /-- R[i], that is A..H -/
  | round (i : Fin 8)
  | ident
  | w (i : Fin 68)
  | wp (i : Fin 64)
  /-- every other offset (R34) -/
  | reserved
  deriving DecidableEq, Repr

/-- What the platform puts at an address of the message space (R69, R72). -/
inductive RegionKind where
  /-- ordinary, idempotent memory -/
  | memory
  /-- a read answers BusError -/
  | busError
  /-- a device whose reads have side effects -/
  | device
  deriving DecidableEq, Repr

/-- One entry of the platform's memory map: `size` bytes from `base`. -/
structure Region where
  base : Nat
  size : Nat
  kind : RegionKind
  deriving DecidableEq, Repr

/-- The platform's parameters that the rules of HASH depend on (R6, R69). No step changes them. -/
structure Platform where
  /-- DMA_COHERENT (R6, R82) -/
  coherent : Bool
  /-- the memory map of the message space; an address in no region is ordinary memory (log 8) -/
  map : List Region
  deriving DecidableEq, Repr

/-- Who stores to the message space (R78, R82). -/
inductive Agent where
  | host
  | other
  deriving DecidableEq, Repr

/-- A host store that the platform holds where the engine's reads do not see it (R76, DMA_COHERENT = false). -/
structure HeldStore where
  addr : Nat
  value : Byte
  /-- another store to the byte has reached memory since, so that either of the two may reach it last (log 10) -/
  overtaken : Bool
  deriving DecidableEq, Repr

/-- The message space as a list of addresses and bytes, in the canonical form `Memory.wf` (Machine/Ops.lean). -/
abbrev Memory := List Host.Cell

/-- What happens next at the engine: an access, a store, a turn of the engine, or the reset input. -/
inductive Input where
  /-- a host read of `width` bits at an offset of the window (R61, R62) -/
  | hostRead (width : Nat) (off : Offset)
  /-- a host write of `width` bits at an offset of the window (R61, R62) -/
  | hostWrite (width : Nat) (off : Offset) (value : Word)
  /-- the host loop WAIT (R96) -/
  | wait
  /-- an agent stores a byte to the message space (R69, R78) -/
  | store (agent : Agent) (addr : Word) (value : Byte)
  /-- the platform makes the host's stores to an address visible to the engine (R76, R82) -/
  | makeVisible (addr : Word)
  /-- HASH reads its next message byte (R36, R70) -/
  | engineRead
  /-- HASH compresses the block whose bytes it has (R36, R194) -/
  | engineCompress
  /-- the pending command runs to its completion (R262) -/
  | engineFinish
  /-- the reset input is asserted (R250) -/
  | assertReset
  /-- the reset input is released (R250) -/
  | releaseReset
  deriving DecidableEq, Repr

/-- What the host sees of an access. -/
inductive HostReply where
  /-- a read of the offset returned the value (R64) -/
  | data (off : Offset) (value : Word)
  /-- the host bus answered an illegal access with a bus error (R62) -/
  | busError
  deriving DecidableEq, Repr

/-- The errors a command can end with (R221). -/
inductive ErrorCode where
  | illegalCmd
  | roundRange
  | sequence
  | addrRange
  | busError
  deriving DecidableEq, Repr

/-- The machine: the engine and its surroundings. -/
structure State where
  /-- the engine (R20) -/
  engine : Engine
  /-- the message space (R60), without the host stores in `held` -/
  mem : Memory
  /-- the platform's parameters (R6, R69) -/
  platform : Platform
  /-- values that bytes held earlier during the pending command (R78) -/
  racing : List Host.Cell
  /-- host stores the platform holds and has not made visible, newest first (R76, R82) -/
  held : List HeldStore
  /-- MODEL: how many free values have been drawn (log 5) -/
  draws : Nat
  /-- MODEL: what happens next, oldest first (log 2) -/
  inputs : List Input
  /-- MODEL: what the host's accesses returned, oldest first (log 24) -/
  replies : List HostReply
  /-- MODEL: the addresses the master port has read, oldest first (log 24) -/
  portReads : List Word
  /-- the level of the reset input (R250) -/
  resetAsserted : Bool
  deriving DecidableEq, Repr

/-- The machine right after reset is released: the engine at R40, nothing stored, nothing happening next. -/
def State.reset : State where
  engine := Engine.reset
  mem := []
  platform := { coherent := true, map := [] }
  racing := []
  held := []
  draws := 0
  inputs := []
  replies := []
  portReads := []
  resetAsserted := false

/-- Why the machine may stop with a fault. -/
inductive Fault where
  /-- Raised by the engine's turn (Machine/Sequencer.lean) when the pending word is no command. Safe: no run from
  reset reaches it, since only a legal word becomes the pending command (R222); see log 15. -/
  | pendingNotACommand
  deriving DecidableEq, Repr

/-- Why a step may have no meaning in the model. -/
inductive Refusal where
  /-- An instruction that has no meaning yet; raised by no arm of this model. Safe. -/
  | notModelled (mnemonic : String)
  /-- Raised by HASH when its message region holds a device with read side effects (R72: "A model refuses such a
  HASH"; U5). Safe. -/
  | sideEffectRegion
  /-- Raised by a host access while reset is asserted (R251: "Host accesses during reset are the platform's"; U12).
  Safe. -/
  | accessDuringReset
  deriving DecidableEq, Repr

end Sys2Proof.Machine
end

