-- ==== Sys2Proof/Machine/Ops.lean ====
section
/-! DEFINITION. The shared operations over the state: the message space and the platform's answer to a read of it
(spec 20_memory.md section 3), and how a command starts, completes, and ends with an error (spec 60_exceptions.md
section 1). -/

namespace Sys2Proof.Machine

/-! ### The message space -/

/-- The byte most recently stored at an address (R69); an unlisted address reads as `unlistedByte` (log 6). -/
def Memory.read : Memory → Nat → Byte
  | [], _ => unlistedByte
  | (k, b) :: m, a => if k = a then b else Memory.read m a

/-- Store a byte, keeping the list strictly rising with no `unlistedByte` entry. -/
def Memory.write : Memory → Nat → Byte → Memory
  | [], a, b => if b = unlistedByte then [] else [(a, b)]
  | (k, c) :: m, a, b =>
    if a < k then (if b = unlistedByte then (k, c) :: m else (a, b) :: (k, c) :: m)
    else if a = k then (if b = unlistedByte then m else (a, b) :: m)
    else (k, c) :: Memory.write m a b

/-- The canonical form: addresses strictly rising and below 2^32 (R60), no entry equal to what an unlisted address
reads as. -/
def Memory.wf (m : Memory) : Bool :=
  decide (m.Pairwise fun x y => x.1 < y.1) && m.all fun x => decide (x.1 < 2 ^ 32) && decide (x.2 ≠ unlistedByte)

/-- What the platform has at an address: the first region of its map that holds it, else ordinary memory (log 8). -/
def Platform.kindAt (p : Platform) (a : Nat) : RegionKind :=
  match p.map.find? fun r => decide (r.base ≤ a) && decide (a < r.base + r.size) with
  | some r => r.kind
  | none => .memory

/-- The host stores to an address that the platform holds, newest first (R76). -/
def State.heldAt (s : State) (a : Nat) : List HeldStore := s.held.filter fun h => h.addr == a

/-- The values an address may read as besides the one in memory: those it held earlier during the pending command
(R78, U4), and those of host stores not yet visible (R82, U9). -/
def State.otherValues (s : State) (a : Nat) : List Byte :=
  (s.racing.filter fun x => x.1 == a).map (·.2) ++ (s.heldAt a).map (·.value)

/-- The byte that draw number `draw` reads at an address of ordinary memory: the one in memory, or, where a store races
or is not yet visible, any of the other values (R69, R78). -/
def State.byteAt (s : State) (a draw : Nat) : Byte :=
  (s.otherValues a)[Config.freeIndex draw]?.getD (s.mem.read a)

/-- MemRead(a, 1) (R69): a byte, or `none` for BusError. -/
def State.memRead (s : State) (a draw : Nat) : Option Byte :=
  match s.platform.kindAt a with
  | .busError => none
  | _ => some (s.byteAt a draw)

/-- `count` reads from address `a` on, in increasing order (R70): the bytes read before the first BusError, and
whether there was one. Read number `i` uses draw `draw + i`. -/
def State.readRun (s : State) : (a draw count : Nat) → List Byte × Bool
  | _, _, 0 => ([], false)
  | a, draw, count + 1 =>
    match s.memRead a draw with
    | none => ([], true)
    | some b => (b :: (s.readRun (a + 1) (draw + 1) count).1, (s.readRun (a + 1) (draw + 1) count).2)

/-- The store goes to the platform's hold and not to memory: a host store on a platform that is not coherent (R76). -/
def State.holdsStore (s : State) (agent : Agent) : Bool := agent = .host && !s.platform.coherent

/-- A byte reaches memory, and every held store to it is overtaken. While a command is pending the value it replaces
stays readable by it (R78). -/
def State.reachMemory (s : State) (a : Word) (b : Byte) : State :=
  { s with
    mem := s.mem.write a.toNat b
    racing := if s.engine.busy then (a.toNat, s.mem.read a.toNat) :: s.racing else s.racing
    held := s.held.map fun h => { h with overtaken := h.overtaken || h.addr == a.toNat } }

/-- An agent stores a byte (R69). A host store on a platform that is not coherent is held until it is made visible
(R76). Any other store completes: it reaches memory, and the value it replaces is gone but for R78's race. DESIGN
CHOICE (log 10): whether a held host store or a later store of another agent to the same byte reaches memory last is
the platform's, so the held store stays readable beside the later one, until `makeVisible` settles which it is. -/
def State.storeByte (s : State) (agent : Agent) (a : Word) (b : Byte) : State :=
  if s.holdsStore agent then { s with held := { addr := a.toNat, value := b, overtaken := false } :: s.held }
  else s.reachMemory a b

/-- The byte an address holds once the held host stores to it have reached memory: that of the newest, or, where
another store to the byte completed after it, either of the two, by draw number `draw` (DESIGN CHOICE, log 10: R76 gives
the two no order). -/
def State.settledByte (s : State) (a draw : Nat) : Byte :=
  match s.heldAt a with
  | [] => s.mem.read a
  | h :: _ => if h.overtaken then [h.value][Config.freeIndex draw]?.getD (s.mem.read a) else h.value

/-- The platform makes the host's stores to an address visible (R76): they are in memory. A pending command may have read
any value the byte could read as before (R78). -/
def State.makeVisible (s : State) (a : Word) : State :=
  { s with
    mem := s.mem.write a.toNat (s.settledByte a.toNat s.draws)
    racing :=
      if s.engine.busy then
        (s.mem.read a.toNat :: s.otherValues a.toNat).map (fun b => (a.toNat, b)) ++ s.racing
      else s.racing
    held := s.held.filter fun h => h.addr != a.toNat
    draws := s.draws + 1 }

/-! ### Start, completion and error of a command -/

/-- The code of an error (R221). -/
def ErrorCode.value : ErrorCode → BitVec 4
  | .illegalCmd => 0x1
  | .roundRange => 0x2
  | .sequence => 0x3
  | .addrRange => 0x4
  | .busError => 0x5

/-- Command start (R222). -/
def Engine.startCommand (e : Engine) (c : Word) : Engine :=
  { e with done := false, err := false, errCode := 0, pending := some c, progress := HashProgress.start }

/-- Successful completion (R228): BUSY <- 0, DONE <- 1; ERR and ERRCODE stay as they are. -/
def Engine.complete (e : Engine) : Engine :=
  { e with pending := none, progress := HashProgress.start, done := true }

/-- `raise EngineError(code)` inside a running command (R229): BUSY <- 0, ERR <- 1, ERRCODE <- code; DONE stays. -/
def Engine.raiseError (e : Engine) (code : ErrorCode) : Engine :=
  { e with pending := none, progress := HashProgress.start, err := true, errCode := code.value }

/-- ILLEGAL_CMD (R223), as part of the CTRL write: DONE <- 0, ERR <- 1, ERRCODE <- 1, nothing else. -/
def Engine.illegalCommand (e : Engine) : Engine :=
  { e with done := false, err := true, errCode := ErrorCode.illegalCmd.value }

/-- The other way back from an error (R31, R233; there is no return instruction): write 1 to clear DONE, ERR with
ERRCODE, and OVR. -/
def Engine.clearStatus (e : Engine) (v : Word) : Engine :=
  { e with
    done := e.done && !v[1]
    err := e.err && !v[2]
    errCode := if v[2] then 0 else e.errCode
    ovr := e.ovr && !v[3] }

/-- Start a command on the machine (R222). The race window of R78 opens here. -/
def State.startCommand (s : State) (c : Word) : State :=
  { s with engine := s.engine.startCommand c, racing := [] }

/-- The command's registers are in `e`; it completes (R228), and its race window closes (R78). -/
def State.completeWith (s : State) (e : Engine) : State :=
  { s with engine := e.complete, racing := [] }

/-- The command ends with a precise error (R229, R230), and its race window closes. -/
def State.failWith (s : State) (code : ErrorCode) : State :=
  { s with engine := s.engine.raiseError code, racing := [] }

/-- The registers after BUS_ERROR (R230, U3): V, BLK, R, W, WP any 32-bit value, J any value in 0..64, drawn once. The
164 words and J take draws `d` to `d + 164`. -/
def Engine.scramble (e : Engine) (d : Nat) : Engine :=
  { e with
    v := Vector.ofFn fun i => Config.freeWord (d + i.val)
    blk := Vector.ofFn fun i => Config.freeWord (d + 8 + i.val)
    r := Vector.ofFn fun i => Config.freeWord (d + 24 + i.val)
    w := Vector.ofFn fun i => Config.freeWord (d + 32 + i.val)
    wp := Vector.ofFn fun i => Config.freeWord (d + 100 + i.val)
    j := BitVec.ofNat 7 (Config.freeRound (d + 164)).val }

/-- HASH ends with BUS_ERROR (R227, R229, R230). -/
def State.failBusError (s : State) : State :=
  { s with
    engine := (s.engine.scramble s.draws).raiseError .busError
    racing := []
    draws := s.draws + 165 }

/-- Submit a word written to CTRL while idle (R91, R222, R223). -/
def State.submit (s : State) (c : Word) : State :=
  match decode c with
  | .ok _ => s.startCommand c
  | .error _ => { s with engine := s.engine.illegalCommand }

end Sys2Proof.Machine
end

