-- ==== Sys2Proof/Machine/WordArith.lean ====
section
/-! DEFINITION. Word arithmetic and byte packing (spec 40_word_arith.md R110 to R118). Addition modulo 2^32 and the
bitwise operators of R111 and R112 are those of `BitVec 32`. -/

namespace Sys2Proof.Machine

/-- Circular left rotation (R113). Never a shift (R114). -/
def rotl (x : Word) (n : Nat) : Word := x.rotateLeft n

/-- BE32: four bytes to a word, first byte most significant (R115). -/
def be32 (b0 b1 b2 b3 : Byte) : Word := b0 ++ b1 ++ b2 ++ b3

/-- bytes32: a word to four bytes, most significant first (R116). -/
def bytes32 (w : Word) : List Byte :=
  [w.extractLsb' 24 8, w.extractLsb' 16 8, w.extractLsb' 8 8, w.extractLsb' 0 8]

/-- BE64: the eight bytes of an integer below 2^64, most significant first (R118). -/
def be64 (x : Nat) : List Byte :=
  (List.range 8).map fun i => BitVec.ofNat 8 (x / 2 ^ (56 - 8 * i))

/-- Word `i` of block `k` of a padded message (R117, R192): big-endian, four bytes from `64k + 4i`. -/
def blockWords (p : List Byte) (k : Nat) : Vector Word 16 :=
  Vector.ofFn fun i =>
    let at0 := 64 * k + 4 * i.val
    be32 (p.getD at0 0) (p.getD (at0 + 1) 0) (p.getD (at0 + 2) 0) (p.getD (at0 + 3) 0)

/-- Word-wise exclusive or of two 8-word values (R155, R158). -/
def xorWords (x y : Vector Word 8) : Vector Word 8 :=
  Vector.ofFn fun i => x[i] ^^^ y[i]

/-- An 8-word value as 32 bytes (R117): the digest bytes of V (R193). -/
def digestBytes (v : Vector Word 8) : List Byte :=
  v.toList.flatMap bytes32

end Sys2Proof.Machine
end

