-- ==== Sys2Proof/Machine/Expander.lean ====
section
/-! DEFINITION. The message expander and the command EXPAND (spec 42_expander.md R140 to R142). -/

namespace Sys2Proof.Machine

/-- P1 (R140). -/
def p1 (x : Word) : Word := x ^^^ rotl x 15 ^^^ rotl x 23

/-- W[i] for i in 16..67, from the words before it (R141). -/
def nextWord (w : Vector Word 68) (i : Nat) : Word :=
  p1 (w[i - 16]! ^^^ w[i - 9]! ^^^ rotl w[i - 3]! 15) ^^^ rotl w[i - 13]! 7 ^^^ w[i - 6]!

/-- W[0..67] of expand(B) (R141): the block's words, then the recurrence in order. -/
def expandWords (b : Vector Word 16) : Vector Word 68 :=
  (List.range' 16 52).foldl (fun w i => w.set! i (nextWord w i))
    (Vector.ofFn fun i => if h : i.val < 16 then b[i.val] else 0)

/-- WP[0..63] from W (R141): WP[j] = W[j] ⊕ W[j+4]. -/
def primeWords (w : Vector Word 68) : Vector Word 64 :=
  Vector.ofFn fun j => w[j.val] ^^^ w[j.val + 4]

/-- (W, WP) <- expand(BLK) (R142). -/
def Engine.expandBlock (e : Engine) : Engine :=
  { e with w := expandWords e.blk, wp := primeWords (expandWords e.blk) }

/-- EXPAND (R142). -/
def execExpand (s : State) : Host.Outcome State Fault Refusal :=
  .next (s.completeWith s.engine.expandBlock)

end Sys2Proof.Machine
end

