-- ==== Sys2Proof/Machine/Compression.lean ====
section
/-! DEFINITION. The compression function and the commands LOADR, ROUND, FOLD and COMPRESS (spec 43_compression.md
R150 to R159). -/

namespace Sys2Proof.Machine

/-- P0 (R150). -/
def p0 (x : Word) : Word := x ^^^ rotl x 9 ^^^ rotl x 17

/-- FF (R151). -/
def ff (x y z : Word) (j : Nat) : Word :=
  if j < 16 then x ^^^ y ^^^ z else (x &&& y) ||| (x &&& z) ||| (y &&& z)

/-- GG (R152). -/
def gg (x y z : Word) (j : Nat) : Word :=
  if j < 16 then x ^^^ y ^^^ z else (x &&& y) ||| (~~~x &&& z)

/-- SS1 of a round (R154), from A, E and the round index. -/
def ss1 (a e : Word) (j : Nat) : Word :=
  rotl (rotl a 12 + e + rotl (roundConstant j) (j % 32)) 7

/-- One round j in 0..63 (R154). Every right-hand side reads the state before the round. -/
def roundFn (s : Vector Word 8) (j : Nat) (w wp : Word) : Vector Word 8 :=
  let ss2 := ss1 s[0] s[4] j ^^^ rotl s[0] 12
  let tt1 := ff s[0] s[1] s[2] j + s[3] + ss2 + wp
  let tt2 := gg s[4] s[5] s[6] j + s[7] + ss1 s[0] s[4] j + w
  #v[tt1, s[0], rotl s[1] 9, s[2], p0 tt2, s[4], rotl s[5] 19, s[6]]

/-- Rounds 0 .. n-1 from a round state (the loop of R155 and R159). -/
def roundsTo (n : Nat) (s : Vector Word 8) (w : Vector Word 68) (wp : Vector Word 64) : Vector Word 8 :=
  (List.range n).foldl (fun s j => roundFn s j w[j]! wp[j]!) s

/-- CF(V, B) (R155). -/
def cf (v : Vector Word 8) (b : Vector Word 16) : Vector Word 8 :=
  xorWords v (roundsTo 64 v (expandWords b) (primeWords (expandWords b)))

/-- R <- V; J <- 0 (R156). -/
def Engine.loadRound (e : Engine) : Engine := { e with r := e.v, j := 0 }

/-- One round j = J; J <- J + 1 (R157). -/
def Engine.stepRound (e : Engine) : Engine :=
  { e with r := roundFn e.r e.j.toNat e.w[e.j.toNat]! e.wp[e.j.toNat]!, j := e.j + 1 }

/-- V <- V ⊕ R (R158). -/
def Engine.foldRound (e : Engine) : Engine := { e with v := xorWords e.v e.r }

/-- R <- V, all 64 rounds, J <- 64 (R159). -/
def Engine.runRounds (e : Engine) : Engine := { e with r := roundsTo 64 e.v e.w e.wp, j := 64 }

/-- The whole compression of BLK into V (R159): also the body of HASH's block loop (R194). -/
def Engine.compressBlock (e : Engine) : Engine := e.expandBlock.runRounds.foldRound

/-- LOADR (R156). -/
def execLoadr (s : State) : Host.Outcome State Fault Refusal :=
  .next (s.completeWith s.engine.loadRound)

/-- ROUND (R157): ROUND_RANGE unless J < 64 (R224, D43; log 16). -/
def execRound (s : State) : Host.Outcome State Fault Refusal :=
  if s.engine.j.toNat < 64 then .next (s.completeWith s.engine.stepRound)
  else .next (s.failWith .roundRange)

/-- FOLD (R158): SEQUENCE unless J = 64 (R225). -/
def execFold (s : State) : Host.Outcome State Fault Refusal :=
  if s.engine.j = 64 then .next (s.completeWith s.engine.foldRound)
  else .next (s.failWith .sequence)

/-- COMPRESS (R159). -/
def execCompress (s : State) : Host.Outcome State Fault Refusal :=
  .next (s.completeWith s.engine.compressBlock)

end Sys2Proof.Machine
end

