-- ==== Sys2Proof/Machine/Padder.lean ====
section
/-! DEFINITION. The message padder (spec 41_padder.md R130). -/

namespace Sys2Proof.Machine

/-- The zero fill of R130: append 0x00 while the bit length is not 448 modulo 512, at most `fuel` times. R131 bounds
the fill by 63 bytes, so `pad` gives 64. -/
def zeroFill : (fuel : Nat) → List Byte → List Byte
  | 0, p => p
  | fuel + 1, p => if (8 * p.length) % 512 ≠ 448 then zeroFill fuel (p ++ [0x00]) else p

/-- pad(m) (R130): the marker 0x80, the zero fill, and the 64-bit big-endian bit length (R134). -/
def pad (m : List Byte) : List Byte :=
  zeroFill 64 (m ++ [0x80]) ++ be64 (8 * m.length)

/-- The number of 64-byte blocks of the padding of an `n`-byte message (R132). -/
def blockCount (n : Nat) : Nat := (n + 8) / 64 + 1

end Sys2Proof.Machine
end

