-- ==== Sys2Proof/Machine/Driver.lean ====
section
/-! DEFINITION. The driver: the pure function hash, and the commands INIT and HASH (spec 44_driver.md R190 to R195).
HASH's progress (R36) is real: `State.advanceRead` and `State.advanceCompress` let the engine read one byte or compress
one block before the command completes, and `execHash` does what is left. -/

namespace Sys2Proof.Machine

/-- V <- IV (R191). -/
def Engine.seedV (e : Engine) : Engine := { e with v := iv }

/-- INIT (R191). -/
def execInit (s : State) : Host.Outcome State Fault Refusal :=
  .next (s.completeWith s.engine.seedV)

/-- The chaining value after the first `k` blocks of a padded message (R192). -/
def chainTo (p : List Byte) (k : Nat) : Vector Word 8 :=
  (List.range k).foldl (fun v i => cf v (blockWords p i)) iv

/-- hash(m) (R192). -/
def hashWords (m : List Byte) : Vector Word 8 := chainTo (pad m) ((pad m).length / 64)

/-- MSG_ADDR + MSG_LEN ≤ 2^32, computed without overflow (R75, R226). -/
def Engine.rangeOk (e : Engine) : Bool := e.msgAddr.toNat + e.msgLen.toNat ≤ 2 ^ 32

/-- The message region holds a device with read side effects (R72). -/
def State.touchesDevice (s : State) : Bool :=
  (List.range s.engine.msgLen.toNat).any fun i =>
    s.platform.kindAt (s.engine.msgAddr.toNat + i) == .device

/-- The address of the next message byte to read: MSG_ADDR plus the bytes read so far (R70). -/
def Engine.nextAddr (e : Engine) : Nat := e.msgAddr.toNat + e.progress.bytes.length

/-- The next `count` reads of the message: the bytes before the first BusError, and whether there was one (R70). -/
def State.readMessage (s : State) (count : Nat) : List Byte × Bool :=
  s.readRun s.engine.nextAddr s.draws count

/-- Record reads that were made: the bytes join the progress, the addresses go to the port log, each read took a
draw number. -/
def State.afterReads (s : State) (got : List Byte × Bool) : State :=
  let issued := got.1.length + (if got.2 then 1 else 0)
  { s with
    engine := { s.engine with
      progress := { s.engine.progress with bytes := s.engine.progress.bytes ++ got.1 } }
    draws := s.draws + issued
    portReads := s.portReads ++ (List.range issued).map fun i => BitVec.ofNat 32 (s.engine.nextAddr + i) }

/-- One turn of the block loop of R194, for block `k`: V is the IV before the first block, BLK is block `k` of the
padded message, and the rest is COMPRESS. -/
def Engine.hashBlock (e : Engine) (k : Nat) : Engine :=
  { (if k = 0 then e.seedV else e) with blk := blockWords (pad e.progress.bytes) k }.compressBlock

/-- The blocks that are left, in increasing order (R192, R194). -/
def Engine.hashRest (e : Engine) : Engine :=
  (List.range' e.progress.block ((pad e.progress.bytes).length / 64 - e.progress.block)).foldl Engine.hashBlock e

/-- HASH (R194): ADDR_RANGE before any read (R226); a device in the region is refused (R72); the reads that are left,
ending with BUS_ERROR at the first that fails (R227); then the blocks that are left. -/
def execHash (s : State) : Host.Outcome State Fault Refusal :=
  if !s.engine.rangeOk then .next (s.failWith .addrRange)
  else if s.touchesDevice then .refused .sideEffectRegion
  else
    let got := s.readMessage (s.engine.msgLen.toNat - s.engine.progress.bytes.length)
    let read := s.afterReads got
    if got.2 then .next read.failBusError
    else .next (read.completeWith read.engine.hashRest)

/-- A HASH that passes its ADDR_RANGE check is running. -/
def State.hashRunning (s : State) : Bool :=
  !s.resetAsserted && s.engine.pending == some (encode .hash) && s.engine.rangeOk

/-- HASH reads its next message byte, if one is left (R36, R70). -/
def State.advanceRead (s : State) : Host.Outcome State Fault Refusal :=
  if !s.hashRunning then .next s
  else if s.touchesDevice then .refused .sideEffectRegion
  else if s.engine.progress.bytes.length < s.engine.msgLen.toNat then
    let got := s.readMessage 1
    let read := s.afterReads got
    if got.2 then .next read.failBusError else .next read
  else .next s

/-- Block `k` of the padded message is known: its 64 message bytes are read, or all the message is. -/
def Engine.blockReady (e : Engine) : Bool :=
  e.progress.block < blockCount e.msgLen.toNat
    && (64 * (e.progress.block + 1) ≤ e.progress.bytes.length || e.progress.bytes.length = e.msgLen.toNat)

/-- HASH compresses block `k` and goes on to the next (R36: "An implementation may interleave the reads with the
compressions", R194). The registers it writes read as any value while the command runs (R64). -/
def State.advanceCompress (s : State) : State :=
  if s.hashRunning && s.engine.blockReady then
    let k := s.engine.progress.block
    { s with
      engine := { s.engine.hashBlock k with progress := { s.engine.progress with block := k + 1 } } }
  else s

end Sys2Proof.Machine
end

