-- ==== Sys2Proof/Machine/Flags.lean ====
section
/-! DEFINITION. The STATUS and INTEN words and the interrupt output (spec 10_state.md R30, R32; 60_exceptions.md
R234). -/

namespace Sys2Proof.Machine

/-- STATUS (R30), with a given value in the J field: bits 31:15 zero, J 14:8, ERRCODE 7:4, OVR 3, ERR 2, DONE 1,
BUSY 0. -/
def Engine.statusWith (e : Engine) (j : BitVec 7) : Word :=
  (0 : BitVec 17) ++ j ++ e.errCode ++ BitVec.ofBool e.ovr ++ BitVec.ofBool e.err ++ BitVec.ofBool e.done
    ++ BitVec.ofBool e.busy

/-- STATUS (R30). -/
def Engine.statusWord (e : Engine) : Word := e.statusWith e.j

/-- INTEN (R32): ERR_IE in bit 1, DONE_IE in bit 0, the rest 0. -/
def Engine.intenWord (e : Engine) : Word :=
  (0 : BitVec 30) ++ BitVec.ofBool e.errIE ++ BitVec.ofBool e.doneIE

/-- A write of INTEN (R32): INTEN[1:0] <- v[1:0]. -/
def Engine.writeInten (e : Engine) (v : Word) : Engine :=
  { e with doneIE := v[0], errIE := v[1] }

/-- The level of the interrupt output IRQ (R234). -/
def Engine.irq (e : Engine) : Bool := (e.done && e.doneIE) || (e.err && e.errIE)

end Sys2Proof.Machine
end

