-- ==== Sys2Proof/Machine/Operands.lean ====
section
/-! DEFINITION. The register map and the value of each register (spec 10_state.md R34, R35; 30_encoding.md R98).
Commands have no operand forms (R94): the only forms are the host's register offsets. -/

namespace Sys2Proof.Machine

/-- The register at a 4-byte aligned offset (R35). -/
def Reg.ofOffset (off : Offset) : Reg :=
  let k := off.toNat / 4
  if k = 0 then .ctrl
  else if k = 1 then .status
  else if k = 2 then .inten
  else if k = 3 then .msgAddr
  else if k = 4 then .msgLen
  else if h : 8 ≤ k ∧ k < 16 then .v ⟨k - 8, by omega⟩
  else if h : 16 ≤ k ∧ k < 32 then .blk ⟨k - 16, by omega⟩
  else if h : 32 ≤ k ∧ k < 40 then .round ⟨k - 32, by omega⟩
  else if k = 63 then .ident
  else if h : 64 ≤ k ∧ k < 132 then .w ⟨k - 64, by omega⟩
  else if h : 192 ≤ k ∧ k < 256 then .wp ⟨k - 192, by omega⟩
  else .reserved

/-- The offset of a named register (R98); the reserved offsets have no name. -/
def Reg.offset : Reg → Option Offset
  | .ctrl => some 0x000
  | .status => some 0x004
  | .inten => some 0x008
  | .msgAddr => some 0x00C
  | .msgLen => some 0x010
  | .v i => some (BitVec.ofNat 10 (0x020 + 4 * i.val))
  | .blk i => some (BitVec.ofNat 10 (0x040 + 4 * i.val))
  | .round i => some (BitVec.ofNat 10 (0x080 + 4 * i.val))
  | .ident => some 0x0FC
  | .w i => some (BitVec.ofNat 10 (0x100 + 4 * i.val))
  | .wp i => some (BitVec.ofNat 10 (0x300 + 4 * i.val))
  | .reserved => none

/-- The registers that read as any value while a command runs (R64). -/
def Reg.isData : Reg → Bool
  | .v _ | .blk _ | .round _ | .w _ | .wp _ => true
  | _ => false

/-- The registers whose write is dropped, with OVR, while a command runs (R66). -/
def Reg.isProtected : Reg → Bool
  | .ctrl | .msgAddr | .msgLen | .v _ | .blk _ => true
  | _ => false

/-- What a register holds: the idle column of R64. -/
def Engine.regValue (e : Engine) : Reg → Word
  | .ctrl => 0
  | .status => e.statusWord
  | .inten => e.intenWord
  | .msgAddr => e.msgAddr
  | .msgLen => e.msgLen
  | .v i => e.v[i]
  | .blk i => e.blk[i]
  | .round i => e.r[i]
  | .ident => idValue
  | .w i => e.w[i]
  | .wp i => e.wp[i]
  | .reserved => 0

/-- The register writes that do not start a command: R65 for the writable registers; R, W, WP, ID and the reserved
offsets ignore a write, and CTRL holds no state (R29). -/
def Engine.setReg (e : Engine) (r : Reg) (v : Word) : Engine :=
  match r with
  | .status => e.clearStatus v
  | .inten => e.writeInten v
  | .msgAddr => { e with msgAddr := v }
  | .msgLen => { e with msgLen := v }
  | .v i => { e with v := e.v.set i v }
  | .blk i => { e with blk := e.blk.set i v }
  | .ctrl | .round _ | .ident | .w _ | .wp _ | .reserved => e

end Sys2Proof.Machine
end

