-- ==== Sys2Proof/Machine/HostPort.lean ====
section
/-! DEFINITION. The register slave port (spec 20_memory.md R61 to R67): host reads and writes, idle and busy; and how a
register lies on the host bus (R60, R63). -/

namespace Sys2Proof.Machine

/-- Only 32-bit accesses at offsets that are multiples of 4 are legal (R62). -/
def accessLegal (width : Nat) (off : Offset) : Bool := width = 32 && off.toNat % 4 = 0

/-- The value a host read returns (R64). While a command runs, a data register reads as any 32-bit value and STATUS has
any value in 0..64 in its J field, by the draw number `s.draws`. -/
def State.readValue (s : State) (r : Reg) : Word :=
  if !s.engine.busy then s.engine.regValue r
  else if r.isData then Config.freeWord s.draws
  else if r = .status then s.engine.statusWith (BitVec.ofNat 7 (Config.freeRound s.draws).val)
  else s.engine.regValue r

/-- A host read of a register (R64): it returns a value and changes no engine state. Each read has its own draw
number, so a later read while busy is another free value. -/
def State.readReg (s : State) (off : Offset) : State :=
  { s with
    draws := s.draws + 1
    replies := s.replies ++ [.data off (s.readValue (Reg.ofOffset off))] }

/-- A host write of a register (R65 idle, R66 busy). -/
def State.writeReg (s : State) (r : Reg) (v : Word) : State :=
  if s.engine.busy && r.isProtected then { s with engine := { s.engine with ovr := true } }
  else if r = .ctrl then s.submit v
  else { s with engine := s.engine.setReg r v }

/-- The bus error the host gets for an illegal access, which changes no engine state (R62; log 11). -/
def State.replyBusError (s : State) : State := { s with replies := s.replies ++ [.busError] }

/-- HostRead (R61, R62, R64). Host accesses during reset are the platform's (R251, U12). -/
def State.hostRead (s : State) (width : Nat) (off : Offset) : Host.Outcome State Fault Refusal :=
  if s.resetAsserted then .refused .accessDuringReset
  else if accessLegal width off then .next (s.readReg off)
  else .next s.replyBusError

/-- HostWrite (R61, R62, R65, R66). -/
def State.hostWrite (s : State) (width : Nat) (off : Offset) (v : Word) : Host.Outcome State Fault Refusal :=
  if s.resetAsserted then .refused .accessDuringReset
  else if accessLegal width off then .next (s.writeReg (Reg.ofOffset off) v)
  else .next s.replyBusError

/-- The host-bus address of an offset of the window (R60). -/
def busAddress (off : Offset) : Nat := Config.base + off.toNat

/-- The offset a host-bus address names, if it lies in the 1 KiB window (R60). -/
def windowOffset (addr : Nat) : Option Offset :=
  if Config.base ≤ addr ∧ addr < Config.base + 0x400 then some (BitVec.ofNat 10 (addr - Config.base)) else none

/-- Byte `k` of a register, byte 0 its bits 7:0. -/
def registerByte (v : Word) (k : Fin 4) : Byte := v.extractLsb' (8 * k.val) 8

/-- The byte on bus lane `k` when a register value is on the host bus (R63). -/
def laneByte (v : Word) (k : Fin 4) : Byte := registerByte v (Config.hostByteLanes k)

end Sys2Proof.Machine
end

