-- ==== Sys2Proof/Machine/Sequencer.lean ====
section
/-! DEFINITION. What each input does, and the engine's turn: it fetches the pending command word, decodes it and runs
it (spec 10_state.md R36, 60_exceptions.md R222, 70_reset_and_hazards.md R250, R251, R262). -/

namespace Sys2Proof.Machine

/-- The engine's turn (R262): the pending command runs to its completion. An idle engine, and one held in reset, does
nothing. -/
def State.finishCommand (s : State) : Host.Outcome State Fault Refusal :=
  if s.resetAsserted then .next s
  else
    match s.engine.pending with
    | none => .next s
    | some c =>
      match decode c with
      | .ok i => exec i s
      | .error _ => .fault .pendingNotACommand

/-- Reset is asserted (R250, R251): every register at its reset value, the command abandoned. -/
def State.assertReset (s : State) : State :=
  { s with engine := Engine.reset, racing := [], resetAsserted := true }

/-- Reset is released (R250): the registers still hold their reset values. -/
def State.releaseReset (s : State) : State := { s with resetAsserted := false }

/-- One poll of WAIT (R96: "repeat HostRead(0x004) until bit 0 (BUSY) = 0"). While the engine is busy it takes its turn
before the next poll (R262; log 14). -/
def State.poll (s : State) : Host.Outcome State Fault Refusal :=
  if s.resetAsserted then .refused .accessDuringReset
  else if s.engine.busy then
    .next { s.readReg 0x004 with inputs := .engineFinish :: .wait :: s.inputs }
  else .next (s.readReg 0x004)

/-- What one input does to the machine. -/
def State.perform (s : State) (x : Input) : Host.Outcome State Fault Refusal :=
  match x with
  | .hostRead width off => s.hostRead width off
  | .hostWrite width off v => s.hostWrite width off v
  | .wait => s.poll
  | .store agent a b => .next (s.storeByte agent a b)
  | .makeVisible a => .next (s.makeVisible a)
  | .engineRead => s.advanceRead
  | .engineCompress => .next s.advanceCompress
  | .engineFinish => s.finishCommand
  | .assertReset => .next s.assertReset
  | .releaseReset => .next s.releaseReset

/-- The machine with a word submitted as the next command, its engine's turn coming next: a command has been started
(R222), and any other word is about to be written to CTRL, where it is reported (R223); log 1. -/
def State.withCommandWord (s : State) (c : Word) : State :=
  match decode c with
  | .ok _ => { s.startCommand c with inputs := .engineFinish :: s.inputs, resetAsserted := false }
  | .error _ =>
    { s with
      engine := { s.engine with pending := none, progress := HashProgress.start }
      inputs := .hostWrite 32 0x000 c :: s.inputs
      resetAsserted := false }

end Sys2Proof.Machine
end

