-- ==== Sys2Proof/Machine/Step.lean ====
section
/-! DEFINITION. One step of the machine: the oldest input happens; with none left, the engine takes its turn, so that a
command once started completes (spec 70_reset_and_hazards.md R262; log 2). -/

namespace Sys2Proof.Machine

/-- One step. -/
def step (s : State) : Host.Outcome State Fault Refusal :=
  match s.inputs with
  | [] => s.finishCommand
  | x :: rest => State.perform { s with inputs := rest } x

/-- The state in which the very next step runs the command whose word is `w` (log 1). Bits at and above `nbits` are
0; a number that is no 32-bit word cannot be written to CTRL and changes nothing. -/
def State.withFetchWord (s : State) (nbits w : Nat) : State :=
  if w % 2 ^ nbits < 2 ^ 32 then s.withCommandWord (BitVec.ofNat 32 (w % 2 ^ nbits)) else s

end Sys2Proof.Machine
end

