-- ==== Sys2Proof/Machine/HostProgram.lean ====
section
/-! DEFINITION. Host programs (spec 30_encoding.md R96 to R98): each line as the inputs it stands for, and the
pseudo-operations. REPEAT n { .. } is `hostRepeat`. -/

namespace Sys2Proof.Machine

/-- `WR <reg>, <imm32>` (R96). A reserved offset has no name, so the line stands for no access. -/
def hostWr (r : Reg) (v : Word) : List Input :=
  match r.offset with
  | some off => [.hostWrite 32 off v]
  | none => []

/-- `RD <reg> -> <name>` (R96). -/
def hostRd (r : Reg) : List Input :=
  match r.offset with
  | some off => [.hostRead 32 off]
  | none => []

/-- `CMD <mnemonic>` (R96). -/
def hostCmd (i : Instr) : List Input := [.hostWrite 32 0x000 (encode i)]

/-- `WAIT` (R96). -/
def hostWait : List Input := [.wait]

/-- `REPEAT <n> { .. }` (R96). -/
def hostRepeat (n : Nat) (body : List Input) : List Input := (List.replicate n body).flatten

/-- `MEM <addr>: <bytes>` (R96): a start-state declaration. -/
def hostMem (m : Memory) (a : Nat) (bytes : List Byte) : Memory :=
  (bytes.zipIdx a).foldl (fun m x => m.write x.2 x.1) m

/-- `DO <mnemonic>` (R97). -/
def hostDo (i : Instr) : List Input := hostCmd i ++ hostWait

/-- `HASHMSG <addr>, <len>` (R97). -/
def hostHashMsg (a n : Word) : List Input := hostWr .msgAddr a ++ hostWr .msgLen n ++ hostDo .hash

/-- `LOADBLK <w0>, .., <w15>` (R97). -/
def hostLoadBlk (b : Vector Word 16) : List Input :=
  (List.finRange 16).flatMap fun i => hostWr (.blk i) b[i]

/-- `LOADV <v0>, .., <v7>` (R97). -/
def hostLoadV (v : Vector Word 8) : List Input :=
  (List.finRange 8).flatMap fun i => hostWr (.v i) v[i]

/-- `STEP` (R97). -/
def hostStep : List Input := hostDo .round

/-- `RDV -> <name>` (R97). -/
def hostRdV : List Input := (List.finRange 8).flatMap fun i => hostRd (.v i)

/-- `CLRSTAT` (R97). -/
def hostClrStat : List Input := hostWr .status 0x0000000E

end Sys2Proof.Machine
end

