-- ==== Sys2Proof/Safety.lean ====
section
/-! DEFINITION. What claims call a good state, an idle machine and a finished run (spec 10_state.md R26, R30, R36, R41;
70_reset_and_hazards.md R250, R263). -/

namespace Sys2Proof.Machine

/-- The engine can take a command: no command is pending and reset is not asserted (R252). -/
abbrev State.Idle (s : State) : Prop := s.engine.pending = none ∧ s.resetAsserted = false

/-- The end of a host program run (R263): its last line is executed and the engine is idle. -/
abbrev State.Finished (s : State) : Prop := s.inputs = [] ∧ s.engine.busy = false

/-- J is in 0..64 (R26, R41). -/
abbrev Engine.RoundInRange (e : Engine) : Prop := e.j.toNat ≤ 64

/-- STATUS is consistent (R30, R64, R221, R222): DONE and ERR exclude each other, both are 0 while busy, ERRCODE is 0
exactly when ERR is, and no reserved code is reported. -/
abbrev Engine.StatusConsistent (e : Engine) : Prop :=
  ¬(e.done = true ∧ e.err = true) ∧ (e.busy = true → e.done = false ∧ e.err = false) ∧
    (e.err = false → e.errCode = 0) ∧ (e.err = true → 1 ≤ e.errCode.toNat ∧ e.errCode.toNat ≤ 5)

/-- A pending word is one of the seven commands, and only a pending HASH has progress (R36, R222). -/
abbrev Engine.PendingLegal (e : Engine) : Prop :=
  (∀ c, e.pending = some c → wellFormedWord c = true) ∧
    (e.pending ≠ some (encode .hash) → e.progress = HashProgress.start)

/-- `WP[j] = W[j] ⊕ W[j+4]` for all j in 0..63 (R41). -/
abbrev Engine.PrimeRelation (e : Engine) : Prop := e.wp = primeWords e.w

/-- The progress of a HASH is a state of its loops (R36, R194): at most MSG_LEN bytes are read, the blocks compressed
are blocks of the message read so far, and V is the chaining value after them. -/
abbrev Engine.ProgressConsistent (e : Engine) : Prop :=
  let p := e.progress
  p.bytes.length ≤ e.msgLen.toNat ∧
    (64 * p.block ≤ p.bytes.length ∨ (p.bytes.length = e.msgLen.toNat ∧ p.block ≤ blockCount e.msgLen.toNat)) ∧
    (0 < p.block → e.blk = blockWords (pad p.bytes) (p.block - 1) ∧ e.w = expandWords e.blk ∧
      e.wp = primeWords e.w ∧ e.r = roundsTo 64 (chainTo (pad p.bytes) (p.block - 1)) e.w e.wp ∧
      e.j = 64 ∧ e.v = chainTo (pad p.bytes) p.block)

/-- The invariant of the whole machine. While reset is asserted the engine holds its reset values (R250). -/
structure State.Inv (s : State) : Prop where
  round : s.engine.RoundInRange
  status : s.engine.StatusConsistent
  pending : s.engine.PendingLegal
  progress : s.engine.ProgressConsistent
  memory : s.mem.wf = true
  reset : s.resetAsserted = true → s.engine = Engine.reset

end Sys2Proof.Machine
end

