-- ==== Sys2Proof/Certificates/Slice0/Obligations.lean ====
section
/-! DEFINITION. The statements for the provers, from the numbered rules of spec/. None is proved here. -/

open Sys2Proof Sys2Proof.Machine

/-! ### Encoding -/

/-- R92: each of the seven words, written out, is its command, and decodes so. A sanity statement. -/
def Obligations.SevenWordsDecode : Prop :=
  decode 0b00000000000000000000000000000001#32 = .ok .init ∧
  decode 0b00000000000000000000000000000010#32 = .ok .compress ∧
  decode 0b00000000000000000000000000000011#32 = .ok .hash ∧
  decode 0b00000000000000000000000000000100#32 = .ok .expand ∧
  decode 0b00000000000000000000000000000101#32 = .ok .loadr ∧
  decode 0b00000000000000000000000000000110#32 = .ok .round ∧
  decode 0b00000000000000000000000000000111#32 = .ok .fold

/-- R91, R93: decoding uses all 32 bits: a word decodes to a command exactly when it is that command's word, which is
one of 1 to 7; any other word written to CTRL while idle ends with ILLEGAL_CMD and changes no other state; a write to
CTRL while busy is not decoded. -/
def Obligations.DecodeAcceptsExactlySevenWords : Prop :=
  (∀ (c : Word) (i : Instr), decode c = .ok i ↔ c = encode i) ∧
  (∀ c : Word, (∃ i, c = encode i) ↔ 1 ≤ c.toNat ∧ c.toNat ≤ 7) ∧
  (∀ (s : State) (c : Word), s.Idle → (∀ i, c ≠ encode i) →
    s.hostWrite 32 0x000 c =
      .next { s with engine := { s.engine with done := false, err := true, errCode := 0x1 } }) ∧
  (∀ (s : State) (c : Word), s.engine.busy = true → s.resetAsserted = false →
    s.hostWrite 32 0x000 c = .next { s with engine := { s.engine with ovr := true } })

/-- Decode and encode agree on every command, also through the opcode table's numbering of bits (R90, R95). -/
def Obligations.DecodeOfEncode : Prop :=
  ∀ i : Instr, i.wellFormed = true → wellFormedWord (encode i) = true ∧ decode (encode i) = .ok i ∧
    decodeTableWord 32 (encode i).toNat = some i

/-! ### Word arithmetic and byte packing -/

/-- R113: rotation by the formula, by bits, and the corner cases (those values are the spec's own derivation). -/
def Obligations.RotlIsCircular : Prop :=
  (∀ (x : Word) (n : Nat), n % 32 = 0 → rotl x n = x) ∧
  (∀ (x : Word) (n : Nat), 1 ≤ n % 32 →
    (rotl x n).toNat = (x.toNat * 2 ^ (n % 32)) % 2 ^ 32 + x.toNat / 2 ^ (32 - n % 32)) ∧
  (∀ (x : Word) (n i : Nat), i < 32 → (rotl x n).getLsbD i = x.getLsbD ((i + 32 - n % 32) % 32)) ∧
  rotl 0x80000000 1 = 0x00000001 ∧ rotl 0x80000001 1 = 0x00000003 ∧ rotl 0x12345678 4 = 0x23456781 ∧
  (∀ n : Nat, rotl 0xFFFFFFFF n = 0xFFFFFFFF)

/-- R115 and R116 (R116 is the spec's own derivation): BE32 by its sum, bytes32 by its fields, and each undoes the
other. -/
def Obligations.Be32AndBytes32AreInverse : Prop :=
  (∀ b0 b1 b2 b3 : Byte,
    (be32 b0 b1 b2 b3).toNat = b0.toNat * 2 ^ 24 + b1.toNat * 2 ^ 16 + b2.toNat * 2 ^ 8 + b3.toNat) ∧
  (∀ w : Word, bytes32 w = [w.extractLsb' 24 8, w.extractLsb' 16 8, w.extractLsb' 8 8, w.extractLsb' 0 8]) ∧
  (∀ b0 b1 b2 b3 : Byte, bytes32 (be32 b0 b1 b2 b3) = [b0, b1, b2, b3]) ∧
  (∀ w : Word, ∃ b0 b1 b2 b3, bytes32 w = [b0, b1, b2, b3] ∧ be32 b0 b1 b2 b3 = w)

/-- R118: BE64 is eight bytes, byte `i` is `(x / 2^(56 - 8i)) mod 256`, and read most significant first they give x
back. -/
def Obligations.Be64IsBigEndian : Prop :=
  ∀ x : Nat, x < 2 ^ 64 → (be64 x).length = 8 ∧
    (∀ i : Nat, i < 8 → ((be64 x)[i]?.map (·.toNat)) = some ((x / 2 ^ (56 - 8 * i)) % 256)) ∧
    (be64 x).foldl (fun acc b => 256 * acc + b.toNat) 0 = x

/-- R117: an 8-word value is written as 32 bytes, byte q being bits [31 − 8·(q mod 4) : 24 − 8·(q mod 4)] of word
q div 4 (for V = hash(m) those are R193's digest bytes); word i of a 64-byte block is BE32 of bytes 4i .. 4i+3. -/
def Obligations.DigestAndBlockByteOrder : Prop :=
  (∀ v : Vector Word 8, (digestBytes v).length = 32 ∧
    ∀ q : Fin 32, (digestBytes v)[q.val]? = some (v[q.val / 4].extractLsb' (24 - 8 * (q.val % 4)) 8)) ∧
  (∀ (b : Vector Byte 64) (i : Fin 16),
    (blockWords b.toList 0)[i] = be32 b[4 * i.val] b[4 * i.val + 1] b[4 * i.val + 2] b[4 * i.val + 3])

/-! ### Padder -/

/-- R131 (the spec's own derivation from R130): the zero fill is `(55 − n) mod 64` bytes, in 0..63; empty exactly when n mod 64 = 55 (that is
(l + 8) mod 512 = 448), and 63 bytes when n mod 64 = 56. -/
def Obligations.PadFillsToBlockBoundary : Prop :=
  ∀ m : List Byte, ∃ z : Nat, (z : Int) = (55 - (m.length : Int)) % 64 ∧ z ≤ 63 ∧
    pad m = m ++ [0x80] ++ List.replicate z 0x00 ++ be64 (8 * m.length) ∧
    (z = 0 ↔ m.length % 64 = 55) ∧ (m.length % 64 = 55 ↔ (8 * m.length + 8) % 512 = 448) ∧
    (z = 63 ↔ m.length % 64 = 56)

/-- R132 (the spec's own derivation from R130 and R131): the padded length is 64·N with N = floor((n + 8) / 64) + 1 = ceil((n + 9) / 64), and the length field fits in
the block that holds the marker exactly when n mod 64 ≤ 55. -/
def Obligations.PadLengthIsBlockCount : Prop :=
  (∀ m : List Byte, (pad m).length = 64 * blockCount m.length ∧
    blockCount m.length = (m.length + 8) / 64 + 1 ∧
    blockCount m.length = (m.length + 9 + 63) / 64 ∧
    (m.length / 64 = ((pad m).length - 8) / 64 ↔ m.length % 64 ≤ 55)) ∧
  blockCount 0 = 1 ∧ blockCount 55 = 1 ∧ blockCount 56 = 2 ∧ blockCount 64 = 2 ∧ blockCount 119 = 2 ∧
  blockCount 120 = 3

/-- R137 (a) to (f) (the spec's own derivation from R130 and R131). -/
def Obligations.PadProperties : Prop :=
  ∀ m : List Byte, (pad m).length % 64 = 0 ∧ (pad m).take m.length = m ∧ (pad m)[m.length]? = some 0x80 ∧
    (∀ i : Nat, i < (119 - m.length % 64) % 64 → (pad m)[m.length + 1 + i]? = some 0x00) ∧
    (pad m).drop ((pad m).length - 8) = be64 (8 * m.length) ∧
    9 ≤ (pad m).length - m.length ∧ (pad m).length - m.length ≤ 72

/-! ### Expander and round functions -/

/-- R141: the words of the expansion, the recurrence for 16..67, the W-prime words, and linearity (the last is the
spec's own derivation). -/
def Obligations.ExpandSatisfiesRecurrence : Prop :=
  (∀ (b : Vector Word 16) (i : Fin 16), (expandWords b)[i.val] = b[i]) ∧
  (∀ (b : Vector Word 16) (i : Nat) (_ : 16 ≤ i) (_ : i < 68),
    let w := expandWords b
    w[i] = p1 (w[i - 16] ^^^ w[i - 9] ^^^ rotl w[i - 3] 15) ^^^ rotl w[i - 13] 7 ^^^ w[i - 6]) ∧
  (∀ (b : Vector Word 16) (j : Fin 64),
    (primeWords (expandWords b))[j] = (expandWords b)[j.val] ^^^ (expandWords b)[j.val + 4]) ∧
  (∀ (b b' : Vector Word 16) (i : Fin 68),
    (expandWords (Vector.ofFn fun k => b[k] ^^^ b'[k]))[i] = (expandWords b)[i] ^^^ (expandWords b')[i]) ∧
  (∀ (b b' : Vector Word 16) (j : Fin 64),
    (primeWords (expandWords (Vector.ofFn fun k => b[k] ^^^ b'[k])))[j] =
      (primeWords (expandWords b))[j] ^^^ (primeWords (expandWords b'))[j]) ∧
  expandWords (Vector.replicate 16 0) = Vector.replicate 68 0 ∧
  primeWords (expandWords (Vector.replicate 16 0)) = Vector.replicate 64 0

/-- R140, R150, R151, R152: the permutations and boolean functions, and the example values the rules give (those are
the spec's own derivation). -/
def Obligations.RoundFunctionsMatchFormulas : Prop :=
  (∀ x : Word, p1 x = x ^^^ rotl x 15 ^^^ rotl x 23) ∧ p1 0 = 0 ∧ p1 0xFFFFFFFF = 0xFFFFFFFF ∧
  p1 0x00000001 = 0x00808001 ∧ p1 0x80000000 = 0x80404000 ∧ p1 0x12345678 = 0x05014549 ∧
  (∀ x : Word, p0 x = x ^^^ rotl x 9 ^^^ rotl x 17) ∧ p0 0 = 0 ∧ p0 0xFFFFFFFF = 0xFFFFFFFF ∧
  p0 0x00000001 = 0x00020201 ∧ p0 0x80000000 = 0x80010100 ∧ p0 0x12345678 = 0xD6688234 ∧
  (∀ (x y z : Word) (j : Nat), j < 16 → ff x y z j = x ^^^ y ^^^ z ∧ gg x y z j = x ^^^ y ^^^ z) ∧
  (∀ (x y z : Word) (j : Nat), 16 ≤ j → j ≤ 63 →
    ff x y z j = (x &&& y) ||| (x &&& z) ||| (y &&& z) ∧ gg x y z j = (x &&& y) ||| (~~~x &&& z)) ∧
  ff 0xF0F0F0F0 0xCCCCCCCC 0xAAAAAAAA 15 = 0x96969696 ∧ ff 0xF0F0F0F0 0xCCCCCCCC 0xAAAAAAAA 16 = 0xE8E8E8E8 ∧
  gg 0xF0F0F0F0 0xCCCCCCCC 0xAAAAAAAA 15 = 0x96969696 ∧ gg 0xF0F0F0F0 0xCCCCCCCC 0xAAAAAAAA 16 = 0xCACACACA

/-! ### The commands: result, completion and frame

Each says that `exec` answers a next state, names every field that differs from the state before, and by the record
update that every other field is the same: every other register, flag, INTEN, MSG_ADDR, MSG_LEN, every byte of
memory, the platform, and what happens next. `racing := []` closes the race window of the command (log 10). -/

/-- R191: INIT writes the IV to V and completes. The digits of the IV are those of R190, which the spec marks as general
knowledge (log 19). -/
def Obligations.InitSeedsChainingValue : Prop :=
  encode .init = 0x00000001 ∧
  ∀ s : State, exec .init s = .next { s with
    engine := { s.engine with
      v := #v[0x7380166F, 0x4914B2B9, 0x172442D7, 0xDA8A0600, 0xA96F30BC, 0x163138AA, 0xE38DEE4D, 0xB0FB0E4E]
      done := true, pending := none, progress := HashProgress.start }
    racing := [] }

/-- R156: LOADR copies V to R, sets J to 0 and completes. Started from reset it gives R = IV, J = 0 and
STATUS = 0x00000002. -/
def Obligations.LoadrCopiesVAndClearsJ : Prop :=
  encode .loadr = 0x00000005 ∧
  (∀ s : State, ∃ t, exec .loadr s = .next t ∧ (∀ i : Fin 8, t.engine.r[i] = s.engine.v[i]) ∧ t.engine.j = 0 ∧
    t = { s with
      engine := { s.engine with
        r := t.engine.r, j := t.engine.j, done := true, pending := none, progress := HashProgress.start }
      racing := [] }) ∧
  (∃ t, step (State.reset.withFetchWord 32 5) = .next t ∧ t.engine.r = iv ∧ t.engine.j = 0 ∧
    t.engine.statusWord = 0x00000002)

/-- R142: EXPAND writes expand(BLK) to W and WP and completes; with BLK zero they are all zero; with the padded "abc"
block W[16] = 0x9092E200, W[67] = 0xB99C0545, WP[15] = 0x719C70F5. -/
def Obligations.ExpandFillsWAndWP : Prop :=
  encode .expand = 0x00000004 ∧
  (∀ s : State, exec .expand s = .next { s with
    engine := { s.engine with
      w := expandWords s.engine.blk, wp := primeWords (expandWords s.engine.blk)
      done := true, pending := none, progress := HashProgress.start }
    racing := [] }) ∧
  (∀ s : State, s.engine.blk = Vector.replicate 16 0 → ∃ t, exec .expand s = .next t ∧
    t.engine.w = Vector.replicate 68 0 ∧ t.engine.wp = Vector.replicate 64 0) ∧
  (∀ s : State, s.engine.blk = #v[0x61626380, 0, 0, 0, 0, 0, 0, 0, 0, 0, 0, 0, 0, 0, 0, 0x00000018] →
    ∃ t, exec .expand s = .next t ∧ t.engine.w[16] = 0x9092E200 ∧ t.engine.w[67] = 0xB99C0545 ∧
      t.engine.wp[15] = 0x719C70F5)

/-- R157, with R154's formulas: ROUND with J < 64 performs round J and increments J; with J = 64 it ends with
ROUND_RANGE and leaves R and J alone. The last clause is the rule's example. -/
def Obligations.RoundStepsThePipeline : Prop :=
  encode .round = 0x00000006 ∧
  (∀ (s : State) (h : s.engine.j.toNat < 64), ∃ t, exec .round s = .next t ∧
    (let r := s.engine.r
     let j := s.engine.j.toNat
     let a12 := rotl r[0] 12
     let ss1' := rotl (a12 + r[4] + rotl (if j < 16 then 0x79CC4519 else 0x7A879D8A) (j % 32)) 7
     let tt1 := ff r[0] r[1] r[2] j + r[3] + (ss1' ^^^ a12) + s.engine.wp[s.engine.j.toNat]
     let tt2 := gg r[4] r[5] r[6] j + r[7] + ss1' + s.engine.w[s.engine.j.toNat]
     t.engine.r = #v[tt1, r[0], rotl r[1] 9, r[2], p0 tt2, r[4], rotl r[5] 19, r[6]]) ∧
    t.engine.j.toNat = s.engine.j.toNat + 1 ∧
    t = { s with
      engine := { s.engine with
        r := t.engine.r, j := t.engine.j, done := true, pending := none, progress := HashProgress.start }
      racing := [] }) ∧
  (∀ s : State, s.engine.j = 64 → exec .round s = .next { s with
    engine := { s.engine with err := true, errCode := 0x2, pending := none, progress := HashProgress.start }
    racing := [] }) ∧
  (∀ (s : State) (b : Vector Word 16), b = #v[0x61626380, 0, 0, 0, 0, 0, 0, 0, 0, 0, 0, 0, 0, 0, 0, 0x00000018] →
    s.engine.w = expandWords b → s.engine.wp = primeWords (expandWords b) → s.engine.r = iv → s.engine.j = 0 →
    ∃ t, exec .round s = .next t ∧ t.engine.r =
      #v[0xB9EDC12B, 0x7380166F, 0x29657292, 0x172442D7, 0xB2AD29F4, 0xA96F30BC, 0xC550B189, 0xE38DEE4D] ∧
      t.engine.j = 1)

/-- R158, R225: FOLD with J = 64 writes V ⊕ R to V, and a second FOLD undoes it; with J ≠ 64 it ends with SEQUENCE and
leaves V alone. The last clause is the rule's example. -/
def Obligations.FoldXorsRIntoV : Prop :=
  encode .fold = 0x00000007 ∧
  (∀ s : State, s.engine.j = 64 → ∃ t, exec .fold s = .next t ∧
    (∀ i : Fin 8, t.engine.v[i] = s.engine.v[i] ^^^ s.engine.r[i]) ∧
    t = { s with
      engine := { s.engine with v := t.engine.v, done := true, pending := none, progress := HashProgress.start }
      racing := [] } ∧
    ∃ u, exec .fold t = .next u ∧ u.engine.v = s.engine.v ∧ u.engine.r = s.engine.r ∧ u.engine.j = 64) ∧
  (∀ s : State, s.engine.j ≠ 64 → exec .fold s = .next { s with
    engine := { s.engine with err := true, errCode := 0x3, pending := none, progress := HashProgress.start }
    racing := [] }) ∧
  (∀ (s : State) (b : Vector Word 16), b = #v[0x61626380, 0, 0, 0, 0, 0, 0, 0, 0, 0, 0, 0, 0, 0, 0, 0x00000018] →
    s.engine.r = roundsTo 64 iv (expandWords b) (primeWords (expandWords b)) → s.engine.v = iv → s.engine.j = 64 →
    ∃ t, exec .fold s = .next t ∧ t.engine.v =
      #v[0x66C7F0F4, 0x62EEEDD9, 0xD1F2D46B, 0xDC10E4E2, 0x4167C487, 0x5CF2F7A2, 0x297DA02B, 0x8F4BA8E0])

/-- R155, R159: COMPRESS leaves W, WP the expansion of BLK, R the state after round 63 from V, J = 64, and
V = CF(V, BLK) = V ⊕ R; the values of the rule for BLK = 0 and for the padded "abc" block. -/
def Obligations.CompressAppliesCF : Prop :=
  encode .compress = 0x00000002 ∧
  (∀ s : State, ∃ t, exec .compress s = .next t ∧ t.engine.w = expandWords s.engine.blk ∧
    t.engine.wp = primeWords t.engine.w ∧
    t.engine.r = (List.finRange 64).foldl
      (fun r (j : Fin 64) => roundFn r j.val t.engine.w[j.val] t.engine.wp[j.val]) s.engine.v ∧
    t.engine.j = 64 ∧ t.engine.v = cf s.engine.v s.engine.blk ∧
    (∀ i : Fin 8, t.engine.v[i] = s.engine.v[i] ^^^ t.engine.r[i]) ∧
    t = { s with
      engine := { s.engine with
        w := t.engine.w, wp := t.engine.wp, r := t.engine.r, j := t.engine.j, v := t.engine.v
        done := true, pending := none, progress := HashProgress.start }
      racing := [] }) ∧
  (∀ s : State, s.engine.blk = Vector.replicate 16 0 → s.engine.v = Vector.replicate 8 0 →
    ∃ t, exec .compress s = .next t ∧ t.engine.v =
      #v[0x2762550F, 0x18134933, 0xBA35CE4E, 0x0A757E65, 0x8C0E7205, 0xFE9E4FF6, 0x5AC5C88B, 0xA3649AC2]) ∧
  (∀ s : State, s.engine.blk = Vector.replicate 16 0 → s.engine.v = iv →
    ∃ t, exec .compress s = .next t ∧ t.engine.v =
      #v[0xA1203A40, 0x4A5566CD, 0x536FCEE8, 0x20DF7E13, 0x35C58F56, 0xB7C4C62E, 0x813C32CC, 0x47BF9B6C]) ∧
  (∀ s : State, s.engine.blk = #v[0x61626380, 0, 0, 0, 0, 0, 0, 0, 0, 0, 0, 0, 0, 0, 0, 0x00000018] →
    s.engine.v = iv → ∃ t, exec .compress s = .next t ∧ t.engine.v =
      #v[0x66C7F0F4, 0x62EEEDD9, 0xD1F2D46B, 0xDC10E4E2, 0x4167C487, 0x5CF2F7A2, 0x297DA02B, 0x8F4BA8E0])

/-- R160 (the spec's own derivation): from an idle state, EXPAND, LOADR, 64 × ROUND, FOLD, each submitted by a CTRL write and finished before the
next, ends in the very state that one COMPRESS ends in. -/
def Obligations.StepSequenceEqualsCompress : Prop :=
  ∀ (s : State) (rest : List Input), s.Idle →
    ∃ t, Host.Core.run Sys2Proof.core 134 { s with
        inputs := ([Instr.expand, .loadr] ++ List.replicate 64 Instr.round ++ [Instr.fold]).flatMap
          (fun i => hostCmd i ++ [.engineFinish]) ++ rest } = .next t ∧
      Host.Core.run Sys2Proof.core 2 { s with inputs := hostCmd .compress ++ [.engineFinish] ++ rest } = .next t ∧
      t.inputs = rest ∧ t.engine.done = true ∧ t.engine.err = false ∧ t.engine.j = 64

/-! ### HASH -/

/-- R70, R192, R194, R195: a HASH with no progress, over ordinary memory within the range, completes: it reads each
byte of the message once, in increasing order, V is hash(m) of the bytes read, BLK the last padded block, W and WP its
expansion, R the round state of that block before the fold, J = 64; every other register and every byte of memory is
as before. The read order of R70 is stated in the form of the model's own port log and draw numbers (log 24, 26). -/
def Obligations.HashComputesDigestOfMessage : Prop :=
  encode .hash = 0x00000003 ∧
  ∀ s : State, s.engine.progress = HashProgress.start →
    s.engine.msgAddr.toNat + s.engine.msgLen.toNat ≤ 2 ^ 32 →
    (∀ i : Nat, i < s.engine.msgLen.toNat → s.platform.kindAt (s.engine.msgAddr.toNat + i) = .memory) →
    ∃ t, exec .hash s = .next t ∧
      (let n := s.engine.msgLen.toNat
       let a := s.engine.msgAddr.toNat
       let m := (List.range n).map fun i => s.byteAt (a + i) (s.draws + i)
       let last := blockCount n - 1
       t.engine.v = hashWords m ∧ t.engine.blk = blockWords (pad m) last ∧
         t.engine.w = expandWords t.engine.blk ∧ t.engine.wp = primeWords t.engine.w ∧
         t.engine.r = roundsTo 64 (chainTo (pad m) last) t.engine.w t.engine.wp ∧ t.engine.j = 64 ∧
         (∀ i : Fin 8, t.engine.v[i] = (chainTo (pad m) last)[i] ^^^ t.engine.r[i]) ∧
         t = { s with
           engine := { s.engine with
             v := t.engine.v, blk := t.engine.blk, w := t.engine.w, wp := t.engine.wp, r := t.engine.r
             j := t.engine.j, done := true, pending := none, progress := HashProgress.start }
           racing := []
           draws := s.draws + n
           portReads := s.portReads ++ (List.range n).map fun i => BitVec.ofNat 32 (a + i) })

/-- R36, R194: the progress of a HASH decides nothing. When a pending HASH reads one byte or compresses one block and
is still pending, running it to its end gives the very outcome it would have given before: the same next state, or the
same refusal. -/
def Obligations.HashProgressDecidesNothing : Prop :=
  ∀ s t : State, s.Inv → s.engine.pending = some (encode .hash) →
    (s.advanceRead = .next t ∨ s.advanceCompress = t) → t.engine.pending = some (encode .hash) →
    exec .hash t = exec .hash s

/-- R226, R75, R231: with MSG_ADDR + MSG_LEN > 2^32 HASH ends with ADDR_RANGE, makes no read and writes no register but
STATUS, whatever the platform has at the addresses. -/
def Obligations.HashAddrRange : Prop :=
  ∀ s : State, 2 ^ 32 < s.engine.msgAddr.toNat + s.engine.msgLen.toNat →
    exec .hash s = .next { s with
      engine := { s.engine with err := true, errCode := 0x4, pending := none, progress := HashProgress.start }
      racing := [] }

/-- R70, R227, R230: a HASH with no progress whose read at index k is the first to return BusError reads indexes
0 .. k only, in increasing order, and ends with BUS_ERROR; MSG_ADDR, MSG_LEN, INTEN, OVR and memory are unchanged, and
J is in 0..64. Of V, BLK, R, W and WP nothing is said: they are free values (log 18). -/
def Obligations.HashBusError : Prop :=
  ∀ (s : State) (k : Nat), s.engine.progress = HashProgress.start →
    s.engine.msgAddr.toNat + s.engine.msgLen.toNat ≤ 2 ^ 32 → k < s.engine.msgLen.toNat →
    (∀ i : Nat, i < k → s.platform.kindAt (s.engine.msgAddr.toNat + i) = .memory) →
    s.platform.kindAt (s.engine.msgAddr.toNat + k) = .busError →
    (∀ i : Nat, i < s.engine.msgLen.toNat → s.platform.kindAt (s.engine.msgAddr.toNat + i) ≠ .device) →
    ∃ t, exec .hash s = .next t ∧
      t.portReads = s.portReads ++ (List.range (k + 1)).map (fun i => BitVec.ofNat 32 (s.engine.msgAddr.toNat + i)) ∧
      t.engine.j.toNat ≤ 64 ∧
      t = { s with
        engine := { s.engine with
          v := t.engine.v, blk := t.engine.blk, r := t.engine.r, w := t.engine.w, wp := t.engine.wp, j := t.engine.j
          err := true, errCode := 0x5, pending := none, progress := HashProgress.start }
        racing := []
        draws := t.draws
        portReads := t.portReads }

/-- R72: a HASH whose region holds a device with read side effects is refused, when it passes its ADDR_RANGE check (that
this check comes first is log 9). -/
def Obligations.HashRefusesDeviceRegion : Prop :=
  ∀ (s : State) (i : Nat), s.engine.msgAddr.toNat + s.engine.msgLen.toNat ≤ 2 ^ 32 → i < s.engine.msgLen.toNat →
    s.platform.kindAt (s.engine.msgAddr.toNat + i) = .device → exec .hash s = .refused .sideEffectRegion

/-- R197 (the spec's own derivation): the result of HASH depends only on the bytes its reads return: two machines with no progress and the same
MSG_LEN, in range, whose reads return the same bytes of ordinary memory, end with the same V, BLK, W, WP, R and J,
whatever the registers, INTEN and the addresses were. -/
def Obligations.HashDependsOnlyOnBytesRead : Prop :=
  ∀ s s' : State, s.engine.progress = HashProgress.start → s'.engine.progress = HashProgress.start →
    s.engine.msgLen = s'.engine.msgLen →
    s.engine.msgAddr.toNat + s.engine.msgLen.toNat ≤ 2 ^ 32 →
    s'.engine.msgAddr.toNat + s'.engine.msgLen.toNat ≤ 2 ^ 32 →
    (∀ i : Nat, i < s.engine.msgLen.toNat →
      s.platform.kindAt (s.engine.msgAddr.toNat + i) = .memory ∧
      s'.platform.kindAt (s'.engine.msgAddr.toNat + i) = .memory ∧
      s.byteAt (s.engine.msgAddr.toNat + i) (s.draws + i) =
        s'.byteAt (s'.engine.msgAddr.toNat + i) (s'.draws + i)) →
    ∃ t t', exec .hash s = .next t ∧ exec .hash s' = .next t' ∧ t.engine.v = t'.engine.v ∧
      t.engine.blk = t'.engine.blk ∧ t.engine.w = t'.engine.w ∧ t.engine.wp = t'.engine.wp ∧
      t.engine.r = t'.engine.r ∧ t.engine.j = t'.engine.j

/-! ### How a command starts, runs and ends -/

/-- R36, R222, R262: when the pending word decodes to command i and the engine's turn is next (an engineFinish input,
or no input left), the step is exec of i, on the state with that input taken away. -/
def Obligations.StepRunsDecodedCommand : Prop :=
  ∀ (s : State) (c : Word) (i : Instr), s.engine.pending = some c → decode c = .ok i → i.wellFormed = true →
    s.resetAsserted = false →
    (∀ rest, s.inputs = .engineFinish :: rest → step s = exec i { s with inputs := rest }) ∧
    (s.inputs = [] → step s = exec i s)

/-- The state that `withFetchWord` prepares from any state runs exactly that command as its very next step, from the
command start of R222 (log 1: the model's own interface). -/
def Obligations.FetchWordRunsThatCommandNext : Prop :=
  ∀ (s : State) (i : Instr), step (s.withFetchWord 32 (encode i).toNat) = exec i { s with
    engine := { s.engine with
      done := false, err := false, errCode := 0, pending := some (encode i), progress := HashProgress.start }
    racing := []
    resetAsserted := false }

/-- R222: a host write of a command's word to CTRL while idle clears DONE, ERR and ERRCODE and makes it the pending
command, so BUSY is 1; OVR and everything else are unchanged. -/
def Obligations.CtrlWriteStartsCommand : Prop :=
  ∀ (s : State) (i : Instr) (rest : List Input), s.Idle → s.inputs = .hostWrite 32 0x000 (encode i) :: rest →
    ∃ t, step s = .next t ∧ t.engine.busy = true ∧
      t = { s with
        engine := { s.engine with
          done := false, err := false, errCode := 0, pending := some (encode i), progress := HashProgress.start }
        racing := []
        inputs := rest }

/-- R228, R229, R231: whatever a running command does, it ends with BUSY = 0 and exactly one of DONE and ERR set,
ERRCODE 0 when DONE and one of 2 to 5 when ERR; OVR, INTEN, MSG_ADDR, MSG_LEN, memory, the platform, and what happens
next are unchanged (R94: no command writes them). -/
def Obligations.CommandEndsWithOneOutcome : Prop :=
  ∀ (i : Instr) (s t : State), s.engine.StatusConsistent → s.engine.busy = true → exec i s = .next t →
    t.engine.busy = false ∧ t.engine.done = !t.engine.err ∧
    (t.engine.done = true → t.engine.errCode = 0) ∧
    (t.engine.err = true → 2 ≤ t.engine.errCode.toNat ∧ t.engine.errCode.toNat ≤ 5) ∧
    t.engine.ovr = s.engine.ovr ∧ t.engine.doneIE = s.engine.doneIE ∧ t.engine.errIE = s.engine.errIE ∧
    t.engine.msgAddr = s.engine.msgAddr ∧ t.engine.msgLen = s.engine.msgLen ∧
    (∀ a, t.mem.read a = s.mem.read a) ∧ t.platform = s.platform ∧ t.held = s.held ∧
    t.inputs = s.inputs ∧ t.replies = s.replies ∧ t.resetAsserted = s.resetAsserted

/-- R68: only HASH uses the master port: no other command makes a read. -/
def Obligations.OnlyHashReadsMemory : Prop :=
  ∀ (i : Instr) (s t : State), i ≠ .hash → exec i s = .next t → t.portReads = s.portReads ∧ t.draws = s.draws

/-! ### The register slave port -/

/-- R35, R98: every named register is found at its offset, which is a multiple of 4; an aligned offset that holds no
named register is reserved, which are 0x014 .. 0x01C, 0x0A0 .. 0x0F8 and 0x210 .. 0x2FC (R34). -/
def Obligations.RegisterMapRoundTrip : Prop :=
  (∀ (r : Reg) (off : Offset), r.offset = some off → Reg.ofOffset off = r ∧ off.toNat % 4 = 0) ∧
  (∀ off : Offset, off.toNat % 4 = 0 → Reg.ofOffset off ≠ .reserved → (Reg.ofOffset off).offset = some off) ∧
  (∀ off : Offset, off.toNat % 4 = 0 → (Reg.ofOffset off = .reserved ↔
    (0x014 ≤ off.toNat ∧ off.toNat ≤ 0x01C) ∨ (0x0A0 ≤ off.toNat ∧ off.toNat ≤ 0x0F8) ∨
      (0x210 ≤ off.toNat ∧ off.toNat ≤ 0x2FC)))

/-- R64: what a legal host read returns, idle and busy, and that it changes no engine state. While busy a data
register gives the free value of this read, STATUS has the free value of this read in its J field, and the next read
has another draw number. -/
def Obligations.HostReadReturns : Prop :=
  ∀ (s : State) (off : Offset), s.resetAsserted = false → off.toNat % 4 = 0 →
    ∃ x : Word, s.hostRead 32 off = .next { s with draws := s.draws + 1, replies := s.replies ++ [.data off x] } ∧
      (match Reg.ofOffset off with
       | .ctrl => x = 0
       | .status =>
         (s.engine.busy = false → x = s.engine.statusWord) ∧
         (s.engine.busy = true → s.engine.StatusConsistent → x[0] = true ∧ x[1] = false ∧ x[2] = false ∧
           x[3] = s.engine.ovr ∧ x.extractLsb' 4 4 = s.engine.errCode ∧
           (x.extractLsb' 8 7).toNat = (Config.freeRound s.draws).val ∧ (x.extractLsb' 8 7).toNat ≤ 64 ∧
           x.extractLsb' 15 17 = 0)
       | .inten => x[0] = s.engine.doneIE ∧ x[1] = s.engine.errIE ∧ x.extractLsb' 2 30 = 0
       | .msgAddr => x = s.engine.msgAddr
       | .msgLen => x = s.engine.msgLen
       | .v i => x = if s.engine.busy then Config.freeWord s.draws else s.engine.v[i]
       | .blk i => x = if s.engine.busy then Config.freeWord s.draws else s.engine.blk[i]
       | .round i => x = if s.engine.busy then Config.freeWord s.draws else s.engine.r[i]
       | .w i => x = if s.engine.busy then Config.freeWord s.draws else s.engine.w[i]
       | .wp i => x = if s.engine.busy then Config.freeWord s.draws else s.engine.wp[i]
       | .ident => x = 0x534D3301
       | .reserved => x = 0)

/-- R65: what a legal host write does while idle: to CTRL, it submits the word as a command (R222, R223); to any other
offset, what the table of the rule says. -/
def Obligations.HostWriteWhileIdle : Prop :=
  (∀ (s : State) (i : Instr), s.Idle → s.hostWrite 32 0x000 (encode i) = .next { s with
    engine := { s.engine with
      done := false, err := false, errCode := 0, pending := some (encode i), progress := HashProgress.start }
    racing := [] }) ∧
  (∀ (s : State) (v : Word), s.Idle → (∀ i, v ≠ encode i) → s.hostWrite 32 0x000 v = .next { s with
    engine := { s.engine with done := false, err := true, errCode := 0x1 } }) ∧
  ∀ (s : State) (off : Offset) (v : Word), s.Idle → off.toNat % 4 = 0 → Reg.ofOffset off ≠ .ctrl →
    ∃ t, s.hostWrite 32 off v = .next t ∧ t = { s with engine := t.engine } ∧
      (match Reg.ofOffset off with
       | .ctrl => True
       | .status => t.engine = s.engine.clearStatus v
       | .inten => t.engine = { s.engine with doneIE := v[0], errIE := v[1] }
       | .msgAddr => t.engine = { s.engine with msgAddr := v }
       | .msgLen => t.engine = { s.engine with msgLen := v }
       | .v i => (∀ k : Fin 8, t.engine.v[k] = if k = i then v else s.engine.v[k]) ∧
           t.engine = { s.engine with v := t.engine.v }
       | .blk i => (∀ k : Fin 16, t.engine.blk[k] = if k = i then v else s.engine.blk[k]) ∧
           t.engine = { s.engine with blk := t.engine.blk }
       | .round _ | .w _ | .wp _ | .ident | .reserved => t.engine = s.engine)

/-- R66, R232: while busy a legal host write to CTRL, MSG_ADDR, MSG_LEN, V or BLK is dropped and sets OVR, and nothing
else: the running command, ERR, ERRCODE and the interrupt are unchanged; STATUS and INTEN writes take effect; a write
to R, W, WP, ID or a reserved offset is ignored. -/
def Obligations.HostWriteWhileBusy : Prop :=
  ∀ (s : State) (off : Offset) (v : Word), s.engine.busy = true → s.resetAsserted = false → off.toNat % 4 = 0 →
    ∃ t, s.hostWrite 32 off v = .next t ∧ t = { s with engine := t.engine } ∧
      (match Reg.ofOffset off with
       | .ctrl | .msgAddr | .msgLen | .v _ | .blk _ =>
         t.engine = { s.engine with ovr := true } ∧ t.engine.irq = s.engine.irq
       | .status => t.engine = s.engine.clearStatus v
       | .inten => t.engine = { s.engine with doneIE := v[0], errIE := v[1] }
       | .round _ | .w _ | .wp _ | .ident | .reserved => t.engine = s.engine)

/-- R31: a write of v to STATUS, idle or busy, clears DONE for v[1], ERR and ERRCODE for v[2], OVR for v[3], leaves a
field alone whose bit is 0, and changes nothing else; the other bits of v do not matter. -/
def Obligations.StatusWriteOneClears : Prop :=
  (∀ (s : State) (v : Word), s.resetAsserted = false → ∃ t, s.hostWrite 32 0x004 v = .next t ∧
    t.engine.done = (if v[1] then false else s.engine.done) ∧
    t.engine.err = (if v[2] then false else s.engine.err) ∧
    t.engine.errCode = (if v[2] then 0 else s.engine.errCode) ∧
    t.engine.ovr = (if v[3] then false else s.engine.ovr) ∧
    t = { s with engine := { s.engine with
      done := t.engine.done, err := t.engine.err, errCode := t.engine.errCode, ovr := t.engine.ovr } }) ∧
  (∀ (s : State) (v v' : Word), v.extractLsb' 1 3 = v'.extractLsb' 1 3 →
    s.hostWrite 32 0x004 v = s.hostWrite 32 0x004 v')

/-- R32: a write of v to INTEN, idle or busy, sets DONE_IE to v[0] and ERR_IE to v[1] and is read back as v AND 3; INTEN
is 0 after reset. -/
def Obligations.IntenReadsBackTwoBits : Prop :=
  State.reset.engine.intenWord = 0 ∧ ∀ (s : State) (v : Word), s.resetAsserted = false → ∃ t, s.hostWrite 32 0x008 v = .next t ∧
    t = { s with engine := { s.engine with doneIE := v[0], errIE := v[1] } } ∧
    t.hostRead 32 0x008 = .next { t with
      draws := t.draws + 1, replies := t.replies ++ [.data 0x008 (v &&& 0x00000003)] }

/-- R62: an access of another width or at an offset that is no multiple of 4 changes no engine state, returns no data,
and sets neither OVR nor ERR; the host sees a bus error (log 11). -/
def Obligations.IllegalAccessChangesNothing : Prop :=
  ∀ (s : State) (width : Nat) (off : Offset) (v : Word), s.resetAsserted = false →
    (width ≠ 32 ∨ off.toNat % 4 ≠ 0) →
    s.hostRead width off = .next { s with replies := s.replies ++ [.busError] } ∧
    s.hostWrite width off v = .next { s with replies := s.replies ++ [.busError] }

/-- R260, R37: a register written while idle reads back its new value at the next host read, and every other register
holds what it held. -/
def Obligations.WrittenRegisterReadsBack : Prop :=
  ∀ (s : State) (r q : Reg) (off offq : Offset) (v : Word), s.Idle → r.offset = some off → q.offset = some offq →
    r.isProtected = true → r ≠ .ctrl →
    ∃ t, s.hostWrite 32 off v = .next t ∧ t.Idle ∧
      t.hostRead 32 offq = .next { t with
        draws := t.draws + 1
        replies := t.replies ++ [.data offq (if q = r then v else s.engine.regValue q)] }

/-- R30: the fields of STATUS lie where the rule says, and bits 31:15 read 0. -/
def Obligations.StatusFieldLayout : Prop :=
  ∀ e : Engine, e.statusWord[0] = e.busy ∧ e.statusWord[1] = e.done ∧ e.statusWord[2] = e.err ∧
    e.statusWord[3] = e.ovr ∧ e.statusWord.extractLsb' 4 4 = e.errCode ∧ e.statusWord.extractLsb' 8 7 = e.j ∧
    e.statusWord.extractLsb' 15 17 = 0

/-- R234: IRQ is (DONE ∧ DONE_IE) ∨ (ERR ∧ ERR_IE) of STATUS and INTEN as the host reads them; a command start and reset
deassert it, and so does clearing the STATUS bits or the enables; OVR does not matter to it. -/
def Obligations.IrqFollowsStatusAndInten : Prop :=
  (∀ e : Engine, e.irq = true ↔
    (e.statusWord[1] = true ∧ e.intenWord[0] = true) ∨ (e.statusWord[2] = true ∧ e.intenWord[1] = true)) ∧
  (∀ (e : Engine) (c : Word), (e.startCommand c).irq = false) ∧ Engine.reset.irq = false ∧
  (∀ (e : Engine) (v : Word), v[1] = true → v[2] = true → (e.clearStatus v).irq = false) ∧
  (∀ (e : Engine) (v : Word), v[0] = false → v[1] = false → (e.writeInten v).irq = false) ∧
  (∀ (e : Engine) (b : Bool), ({ e with ovr := b } : Engine).irq = e.irq)

/-- R60: the window is 1 KiB at BASE, which is 1 KiB aligned: every offset has one bus address in it, and every bus
address in it one offset. -/
def Obligations.RegisterWindowIsOneKiBAtBase : Prop :=
  Config.base % 1024 = 0 ∧ (∀ off : Offset, windowOffset (busAddress off) = some off) ∧
  (∀ (a : Nat) (off : Offset), windowOffset a = some off → a = busAddress off) ∧
  (∀ a : Nat, windowOffset a = none ↔ a < Config.base ∨ Config.base + 1024 ≤ a)

/-! ### Reset -/

/-- R40: the reset value of every piece of state; STATUS reads 0x00004000 and IRQ is deasserted. The digits of the IV are
those of R190, which the spec marks as general knowledge (log 19). -/
def Obligations.ResetValues : Prop :=
  let e := State.reset.engine
  e.v = #v[0x7380166F, 0x4914B2B9, 0x172442D7, 0xDA8A0600, 0xA96F30BC, 0x163138AA, 0xE38DEE4D, 0xB0FB0E4E] ∧
  (∀ i : Fin 16, e.blk[i] = 0) ∧ (∀ i : Fin 8, e.r[i] = 0) ∧ (∀ i : Fin 68, e.w[i] = 0) ∧
  (∀ i : Fin 64, e.wp[i] = 0) ∧ e.j = 64 ∧ e.msgAddr = 0 ∧ e.msgLen = 0 ∧ e.busy = false ∧ e.done = false ∧
  e.err = false ∧ e.ovr = false ∧ e.errCode = 0 ∧ e.doneIE = false ∧ e.errIE = false ∧ e.pending = none ∧
  e.progress = HashProgress.start ∧ e.statusWord = 0x00004000 ∧ e.irq = false

/-- R250, R251: asserting reset in any state gives the reset values at once, abandons the command with DONE, ERR and
IRQ 0, and leaves memory alone; while reset is asserted no step changes the engine or makes a master-port read, and
releasing it changes nothing more. -/
def Obligations.ResetFromAnyState : Prop :=
  (∀ (s : State) (rest : List Input), s.inputs = .assertReset :: rest → ∃ t, step s = .next t ∧
    t.engine = State.reset.engine ∧ t.engine.irq = false ∧ t.resetAsserted = true ∧ (∀ a, t.mem.read a = s.mem.read a) ∧
    t.portReads = s.portReads) ∧
  (∀ s t : State, s.resetAsserted = true → s.engine = State.reset.engine → step s = .next t →
    t.engine = State.reset.engine ∧ t.portReads = s.portReads) ∧
  (∀ (s : State) (rest : List Input), s.inputs = .releaseReset :: rest →
    step s = .next { s with inputs := rest, resetAsserted := false })

/-! ### The message space -/

/-- R69: a byte reads as the byte most recently stored there, and a store changes no other byte. A host store on a
platform that is not coherent is in memory once it is made visible (R76), and until then memory is as it was. -/
def Obligations.StoreThenReadReturnsByte : Prop :=
  ∀ (s : State) (g : Agent) (a : Word) (b : Byte), s.mem.wf = true → ∀ x : Nat,
    (g = .other ∨ s.platform.coherent = true →
      (s.storeByte g a b).mem.read x = if x = a.toNat then b else s.mem.read x) ∧
    (g = .host → s.platform.coherent = false → (s.storeByte g a b).mem.read x = s.mem.read x ∧
      ((s.storeByte g a b).makeVisible a).mem.read x = if x = a.toNat then b else s.mem.read x)

/-- R78, R69, R82, in the form the model gives them (log 10): a read of ordinary memory returns a value the byte holds or
held during the command; where no store races and none waits to be made visible it is the byte in memory; a store during
a command, of any agent, makes the new value readable and keeps every value readable that was; so does making a store
visible; a completed store while idle leaves no old value; and the end of the command closes the window. -/
def Obligations.RacingByteReadsAValueItHeld : Prop :=
  (∀ (s : State) (a d : Nat), s.byteAt a d ∈ s.mem.read a :: s.otherValues a) ∧
  (∀ (s : State) (a d : Nat), s.otherValues a = [] → s.byteAt a d = s.mem.read a) ∧
  (∀ (s : State) (g : Agent) (a : Word) (b y : Byte), s.mem.wf = true → s.engine.busy = true →
    (y ∈ (s.storeByte g a b).mem.read a.toNat :: (s.storeByte g a b).otherValues a.toNat ↔
      y = b ∨ y ∈ s.mem.read a.toNat :: s.otherValues a.toNat)) ∧
  (∀ (s : State) (a : Word) (y : Byte), s.engine.busy = true → y ∈ s.mem.read a.toNat :: s.otherValues a.toNat →
    y ∈ (s.makeVisible a).mem.read a.toNat :: (s.makeVisible a).otherValues a.toNat) ∧
  (∀ (s : State) (g : Agent) (a : Word) (b : Byte), s.engine.busy = false →
    (g = .other ∨ s.platform.coherent = true) →
    (s.storeByte g a b).otherValues a.toNat = s.otherValues a.toNat) ∧
  (∀ (i : Instr) (s t : State), exec i s = .next t → t.racing = [])

/-- R76, R82, in the form the model gives them (log 10): on a platform that is not coherent a host store adds its value
to those its byte may read as, until the platform makes it visible; then, with no command pending and no race, the byte
reads as what is in memory, which is the newest held store, or, where another store completed after that one, either of
the two. Other addresses are not affected. -/
def Obligations.StoreNotYetVisibleReadsOldOrNew : Prop :=
  (∀ (s : State) (a : Word) (b x : Byte), s.platform.coherent = false →
    (s.storeByte .host a b).heldAt a.toNat = { addr := a.toNat, value := b, overtaken := false } :: s.heldAt a.toNat ∧
      (s.storeByte .host a b).mem = s.mem ∧
      (x ∈ (s.storeByte .host a b).otherValues a.toNat ↔ x = b ∨ x ∈ s.otherValues a.toNat)) ∧
  (∀ (s : State) (a : Word) (d : Nat), s.engine.busy = false → s.racing = [] →
    (s.makeVisible a).byteAt a.toNat d = (s.makeVisible a).mem.read a.toNat) ∧
  (∀ (s : State) (a : Word), s.mem.wf = true →
    (s.heldAt a.toNat = [] → (s.makeVisible a).mem.read a.toNat = s.mem.read a.toNat) ∧
    (∀ h rest, s.heldAt a.toNat = h :: rest →
      (h.overtaken = false → (s.makeVisible a).mem.read a.toNat = h.value) ∧
      (h.overtaken = true → (s.makeVisible a).mem.read a.toNat = h.value ∨
        (s.makeVisible a).mem.read a.toNat = s.mem.read a.toNat))) ∧
  (∀ (s : State) (a x : Word), x ≠ a → (s.makeVisible a).otherValues x.toNat = s.otherValues x.toNat ∧
    (s.makeVisible a).mem.read x.toNat = s.mem.read x.toNat)

/-! ### Rules of the whole machine -/

/-- R68: the engine never writes memory: a step changes a byte of the message space only by a store of an agent that
completes, or by the platform making a held host store to it visible (R76). -/
def Obligations.OnlyStoresChangeMemory : Prop :=
  ∀ (s t : State) (a : Nat), s.mem.wf = true → step s = .next t → t.mem.read a ≠ s.mem.read a →
    (∃ g x b rest, s.inputs = .store g x b :: rest ∧ x.toNat = a ∧ t.mem.read a = b ∧
      (g = .other ∨ s.platform.coherent = true)) ∨
    (∃ x rest h, s.inputs = .makeVisible x :: rest ∧ x.toNat = a ∧ h ∈ s.heldAt a ∧ t.mem.read a = h.value)

/-- R37: a register changes only by a command, an accepted host write, or reset: a host read, WAIT, a store, making a
store visible and an illegal access leave the engine as it is. -/
def Obligations.EngineChangesOnlyByItsInputs : Prop :=
  ∀ (s t : State) (x : Input) (rest : List Input), s.inputs = x :: rest → step s = .next t →
    t.engine ≠ s.engine →
    x = .engineRead ∨ x = .engineCompress ∨ x = .engineFinish ∨ x = .assertReset ∨
      ∃ off v, x = .hostWrite 32 off v ∧ off.toNat % 4 = 0

/-- R27, R28, R66: MSG_ADDR and MSG_LEN change only by a host write of their own offset while idle, or by reset. -/
def Obligations.MessageRegistersChangeOnlyByHost : Prop :=
  ∀ s t : State, step s = .next t →
    (t.engine.msgAddr ≠ s.engine.msgAddr →
      ∃ rest, s.inputs = .assertReset :: rest ∨
        (s.engine.busy = false ∧ s.inputs = .hostWrite 32 0x00C t.engine.msgAddr :: rest)) ∧
    (t.engine.msgLen ≠ s.engine.msgLen →
      ∃ rest, s.inputs = .assertReset :: rest ∨
        (s.engine.busy = false ∧ s.inputs = .hostWrite 32 0x010 t.engine.msgLen :: rest))

/-- Every step keeps the machine's invariant: J in 0..64 (R26, R41), STATUS consistent (R30), a pending command legal
(R36, R222), HASH's progress consistent (R36), memory canonical, and the engine at its reset values while reset is
asserted (R250). -/
def Obligations.StepKeepsInvariant : Prop :=
  ∀ s t : State, s.Inv → step s = .next t → t.Inv

/-- The invariant holds at reset. -/
def Obligations.ResetMeetsInvariant : Prop := State.reset.Inv ∧ State.reset.engine.PrimeRelation

/-- R41 (the spec's own derivation): every step keeps `WP[j] = W[j] ⊕ W[j+4]` for all j, but for the step in which a HASH ends with BUS_ERROR. -/
def Obligations.StepKeepsPrimeRelation : Prop :=
  ∀ s t : State, (∀ j : Fin 64, s.engine.wp[j] = s.engine.w[j.val] ^^^ s.engine.w[j.val + 4]) → step s = .next t →
    (∀ j : Fin 64, t.engine.wp[j] = t.engine.w[j.val] ^^^ t.engine.w[j.val + 4]) ∨
    (s.engine.pending = some (encode .hash) ∧ t.engine.pending = none ∧ t.engine.err = true ∧ t.engine.errCode = 0x5)

/-- R220: the engine has no trap: from a state that meets the invariant no step faults, and a refused step has the
reason accessDuringReset while reset is asserted, or the reason sideEffectRegion for a HASH over a device. -/
def Obligations.StepNeverFaults : Prop :=
  ∀ s : State, s.Inv → (∀ f, step s ≠ .fault f) ∧
    (∀ q, step s = .refused q →
      (s.resetAsserted = true ∧ q = .accessDuringReset) ∨
      (s.resetAsserted = false ∧ s.engine.pending = some (encode .hash) ∧ s.touchesDevice = true ∧
        q = .sideEffectRegion))

/-- R262, R77: a command once started completes: with the engine's turn next, a machine that meets the invariant and
has no device in HASH's region takes a next state with BUSY = 0, and one step more while idle changes nothing. -/
def Obligations.PendingCommandCompletes : Prop :=
  ∀ s : State, s.Inv → s.inputs = [] → s.resetAsserted = false →
    (s.engine.pending = some (encode .hash) → s.touchesDevice = false) →
    ∃ t, step s = .next t ∧ t.Finished ∧ step t = .next t

/-- R96: WAIT reads STATUS until BUSY reads 0. On an idle engine that is one read; on a running one, in this model (the
engine takes its turn between two polls, log 14), the first read shows BUSY = 1, the command ends, and the second read
shows the STATUS it left. -/
def Obligations.WaitEndsWithIdleEngine : Prop :=
  ∀ (s : State) (rest : List Input), s.Inv → s.inputs = hostWait ++ rest → s.resetAsserted = false →
    (s.engine.busy = false → step s = .next { s with
      inputs := rest, draws := s.draws + 1, replies := s.replies ++ [.data 0x004 s.engine.statusWord] }) ∧
    (s.engine.busy = true → (s.engine.pending = some (encode .hash) → s.touchesDevice = false) →
      ∃ t x, Host.Core.run Sys2Proof.core 3 s = .next t ∧ t.inputs = rest ∧ t.engine.busy = false ∧ x[0] = true ∧
        t.replies = s.replies ++ [.data 0x004 x, .data 0x004 t.engine.statusWord] ∧ t.engine.statusWord[0] = false)

/-- R76: every completed store is visible to the HASH that starts after it. While idle and with no race, after a store
of an agent that completes, a byte may read as that store's value or as one of the host stores to it that the platform
still holds, and as nothing older: on a coherent platform with nothing held, it reads as the byte stored, and so it does
when a HASH then starts. The order of a held host store and a later store to the byte is the platform's (log 10). -/
def Obligations.CompletedStoreHidesOlderValues : Prop :=
  (∀ (s : State) (g : Agent) (a : Word) (b y : Byte), s.mem.wf = true → s.engine.busy = false → s.racing = [] →
    (g = .other ∨ s.platform.coherent = true) →
    (y ∈ (s.storeByte g a b).mem.read a.toNat :: (s.storeByte g a b).otherValues a.toNat ↔
      y = b ∨ ∃ h ∈ s.heldAt a.toNat, h.value = y) ∧
    (∀ h ∈ (s.storeByte g a b).heldAt a.toNat, h.overtaken = true)) ∧
  (∀ (s : State) (g : Agent) (a : Word) (b : Byte) (i : Instr) (d : Nat), s.mem.wf = true → s.engine.busy = false →
    (g = .other ∨ s.platform.coherent = true) → s.heldAt a.toNat = [] →
    ((s.storeByte g a b).startCommand (encode i)).byteAt a.toNat d = b)
end

