-- ==== Sys2Proof/Laws/Expander.lean ====
section
/-! SUPPORT. The expander's loop: each turn writes one word and leaves the words before it (spec 42_expander.md
R141). -/

namespace Sys2Proof.Machine

/-- WP[j] = W[j] ⊕ W[j+4] (R141). -/
@[simp] theorem primeWords_getElem (w : Vector Word 68) {j : Nat} (h : j < 64) :
    (primeWords w)[j] = w[j] ^^^ w[j + 4] := by
  simp [primeWords]

/-- The words after `n` turns of the loop of R141. -/
def expandTo (n : Nat) (b : Vector Word 16) : Vector Word 68 :=
  (List.range' 16 n).foldl (fun w i => w.set! i (nextWord w i))
    (Vector.ofFn fun i => if h : i.val < 16 then b[i.val] else 0)

theorem expandTo_last (b : Vector Word 16) : expandTo 52 b = expandWords b := rfl

theorem expandTo_succ (n : Nat) (b : Vector Word 16) :
    expandTo (n + 1) b = (expandTo n b).set! (16 + n) (nextWord (expandTo n b) (16 + n)) := by
  simp [expandTo, List.range'_concat]

/-- Later turns leave a word alone once its turn is over. -/
theorem expandTo_getElem_of_lt (b : Vector Word 16) {m n i : Nat} (hi : i < 16 + m) (hmn : m ≤ n) (h68 : i < 68) :
    (expandTo n b)[i] = (expandTo m b)[i] := by
  induction n, hmn using Nat.le_induction with
  | base => rfl
  | succ n hn ih =>
    rw [← ih]
    simp only [expandTo_succ, Vector.set!_eq_setIfInBounds]
    rw [Vector.getElem_setIfInBounds_ne]
    omega

/-- The first sixteen words are the block (R141). -/
theorem expandWords_getElem_block (b : Vector Word 16) {i : Nat} (hi : i < 16) :
    (expandWords b)[i] = b[i] := by
  rw [← expandTo_last, expandTo_getElem_of_lt b (m := 0) (by omega) (by omega)]
  simp [expandTo, hi]

/-- Word `i` for i in 16..67 is written by its own turn, from words that are already final. -/
theorem expandWords_getElem_next (b : Vector Word 16) {i : Nat} (h16 : 16 ≤ i) (h68 : i < 68) :
    (expandWords b)[i] = nextWord (expandTo (i - 16) b) i := by
  rw [← expandTo_last, expandTo_getElem_of_lt b (m := i - 16 + 1) (by omega) (by omega)]
  simp only [expandTo_succ, Vector.set!_eq_setIfInBounds, show 16 + (i - 16) = i by omega]
  rw [Vector.getElem_setIfInBounds_self]

/-- An index below 16 + n reads in the words after `n` turns as it does in the whole expansion. -/
theorem expandTo_getElem!_eq (b : Vector Word 16) {n i : Nat} (hi : i < 16 + n) (hn : n ≤ 52) (h68 : i < 68) :
    (expandTo n b)[i]! = (expandWords b)[i] := by
  rw [getElem!_pos _ i h68, ← expandTo_last, expandTo_getElem_of_lt b hi hn]

/-- Rotation distributes over exclusive or. -/
theorem rotl_xor (x y : Word) (n : Nat) : rotl (x ^^^ y) n = rotl x n ^^^ rotl y n := by
  apply BitVec.eq_of_getLsbD_eq
  intro i hi
  simp only [rotl, BitVec.getLsbD_rotateLeft, BitVec.getLsbD_xor, hi, decide_true, Bool.true_and]
  cases decide (i < n % 32) <;> rfl

theorem p1_xor (x y : Word) : p1 (x ^^^ y) = p1 x ^^^ p1 y := by
  simp only [p1, rotl_xor]
  ac_rfl

end Sys2Proof.Machine
end

