-- ==== Sys2Proof/Laws/State.lean ====
section
/-! SUPPORT. One lemma per field per update of the engine and of the state, so that no proof unfolds a record update.
A field an update does not mention here is drawn or conditional; its own lemmas are in the other files of Laws/. -/

namespace Sys2Proof.Machine

/-! ### Engine.complete -/

@[simp] theorem Engine.complete_v (e : Engine) : e.complete.v = e.v := rfl
@[simp] theorem Engine.complete_blk (e : Engine) : e.complete.blk = e.blk := rfl
@[simp] theorem Engine.complete_r (e : Engine) : e.complete.r = e.r := rfl
@[simp] theorem Engine.complete_w (e : Engine) : e.complete.w = e.w := rfl
@[simp] theorem Engine.complete_wp (e : Engine) : e.complete.wp = e.wp := rfl
@[simp] theorem Engine.complete_j (e : Engine) : e.complete.j = e.j := rfl
@[simp] theorem Engine.complete_msgAddr (e : Engine) : e.complete.msgAddr = e.msgAddr := rfl
@[simp] theorem Engine.complete_msgLen (e : Engine) : e.complete.msgLen = e.msgLen := rfl
@[simp] theorem Engine.complete_done (e : Engine) : e.complete.done = true := rfl
@[simp] theorem Engine.complete_err (e : Engine) : e.complete.err = e.err := rfl
@[simp] theorem Engine.complete_ovr (e : Engine) : e.complete.ovr = e.ovr := rfl
@[simp] theorem Engine.complete_errCode (e : Engine) : e.complete.errCode = e.errCode := rfl
@[simp] theorem Engine.complete_doneIE (e : Engine) : e.complete.doneIE = e.doneIE := rfl
@[simp] theorem Engine.complete_errIE (e : Engine) : e.complete.errIE = e.errIE := rfl
@[simp] theorem Engine.complete_pending (e : Engine) : e.complete.pending = none := rfl
@[simp] theorem Engine.complete_progress (e : Engine) : e.complete.progress = HashProgress.start := rfl

/-! ### Engine.raiseError -/

@[simp] theorem Engine.raiseError_v (e : Engine) (c : ErrorCode) : (e.raiseError c).v = e.v := rfl
@[simp] theorem Engine.raiseError_blk (e : Engine) (c : ErrorCode) : (e.raiseError c).blk = e.blk := rfl
@[simp] theorem Engine.raiseError_r (e : Engine) (c : ErrorCode) : (e.raiseError c).r = e.r := rfl
@[simp] theorem Engine.raiseError_w (e : Engine) (c : ErrorCode) : (e.raiseError c).w = e.w := rfl
@[simp] theorem Engine.raiseError_wp (e : Engine) (c : ErrorCode) : (e.raiseError c).wp = e.wp := rfl
@[simp] theorem Engine.raiseError_j (e : Engine) (c : ErrorCode) : (e.raiseError c).j = e.j := rfl
@[simp] theorem Engine.raiseError_msgAddr (e : Engine) (c : ErrorCode) : (e.raiseError c).msgAddr = e.msgAddr := rfl
@[simp] theorem Engine.raiseError_msgLen (e : Engine) (c : ErrorCode) : (e.raiseError c).msgLen = e.msgLen := rfl
@[simp] theorem Engine.raiseError_done (e : Engine) (c : ErrorCode) : (e.raiseError c).done = e.done := rfl
@[simp] theorem Engine.raiseError_err (e : Engine) (c : ErrorCode) : (e.raiseError c).err = true := rfl
@[simp] theorem Engine.raiseError_ovr (e : Engine) (c : ErrorCode) : (e.raiseError c).ovr = e.ovr := rfl
@[simp] theorem Engine.raiseError_errCode (e : Engine) (c : ErrorCode) : (e.raiseError c).errCode = c.value := rfl
@[simp] theorem Engine.raiseError_doneIE (e : Engine) (c : ErrorCode) : (e.raiseError c).doneIE = e.doneIE := rfl
@[simp] theorem Engine.raiseError_errIE (e : Engine) (c : ErrorCode) : (e.raiseError c).errIE = e.errIE := rfl
@[simp] theorem Engine.raiseError_pending (e : Engine) (c : ErrorCode) : (e.raiseError c).pending = none := rfl
@[simp] theorem Engine.raiseError_progress (e : Engine) (c : ErrorCode) :
    (e.raiseError c).progress =
      HashProgress.start := rfl

/-! ### Engine.startCommand -/

@[simp] theorem Engine.startCommand_v (e : Engine) (c : Word) : (e.startCommand c).v = e.v := rfl
@[simp] theorem Engine.startCommand_blk (e : Engine) (c : Word) : (e.startCommand c).blk = e.blk := rfl
@[simp] theorem Engine.startCommand_r (e : Engine) (c : Word) : (e.startCommand c).r = e.r := rfl
@[simp] theorem Engine.startCommand_w (e : Engine) (c : Word) : (e.startCommand c).w = e.w := rfl
@[simp] theorem Engine.startCommand_wp (e : Engine) (c : Word) : (e.startCommand c).wp = e.wp := rfl
@[simp] theorem Engine.startCommand_j (e : Engine) (c : Word) : (e.startCommand c).j = e.j := rfl
@[simp] theorem Engine.startCommand_msgAddr (e : Engine) (c : Word) : (e.startCommand c).msgAddr = e.msgAddr := rfl
@[simp] theorem Engine.startCommand_msgLen (e : Engine) (c : Word) : (e.startCommand c).msgLen = e.msgLen := rfl
@[simp] theorem Engine.startCommand_done (e : Engine) (c : Word) : (e.startCommand c).done = false := rfl
@[simp] theorem Engine.startCommand_err (e : Engine) (c : Word) : (e.startCommand c).err = false := rfl
@[simp] theorem Engine.startCommand_ovr (e : Engine) (c : Word) : (e.startCommand c).ovr = e.ovr := rfl
@[simp] theorem Engine.startCommand_errCode (e : Engine) (c : Word) : (e.startCommand c).errCode = 0 := rfl
@[simp] theorem Engine.startCommand_doneIE (e : Engine) (c : Word) : (e.startCommand c).doneIE = e.doneIE := rfl
@[simp] theorem Engine.startCommand_errIE (e : Engine) (c : Word) : (e.startCommand c).errIE = e.errIE := rfl
@[simp] theorem Engine.startCommand_pending (e : Engine) (c : Word) : (e.startCommand c).pending = some c := rfl
@[simp] theorem Engine.startCommand_progress (e : Engine) (c : Word) :
    (e.startCommand c).progress =
      HashProgress.start := rfl

/-! ### Engine.illegalCommand -/

@[simp] theorem Engine.illegalCommand_v (e : Engine) : e.illegalCommand.v = e.v := rfl
@[simp] theorem Engine.illegalCommand_blk (e : Engine) : e.illegalCommand.blk = e.blk := rfl
@[simp] theorem Engine.illegalCommand_r (e : Engine) : e.illegalCommand.r = e.r := rfl
@[simp] theorem Engine.illegalCommand_w (e : Engine) : e.illegalCommand.w = e.w := rfl
@[simp] theorem Engine.illegalCommand_wp (e : Engine) : e.illegalCommand.wp = e.wp := rfl
@[simp] theorem Engine.illegalCommand_j (e : Engine) : e.illegalCommand.j = e.j := rfl
@[simp] theorem Engine.illegalCommand_msgAddr (e : Engine) : e.illegalCommand.msgAddr = e.msgAddr := rfl
@[simp] theorem Engine.illegalCommand_msgLen (e : Engine) : e.illegalCommand.msgLen = e.msgLen := rfl
@[simp] theorem Engine.illegalCommand_done (e : Engine) : e.illegalCommand.done = false := rfl
@[simp] theorem Engine.illegalCommand_err (e : Engine) : e.illegalCommand.err = true := rfl
@[simp] theorem Engine.illegalCommand_ovr (e : Engine) : e.illegalCommand.ovr = e.ovr := rfl
@[simp] theorem Engine.illegalCommand_errCode (e : Engine) : e.illegalCommand.errCode = 0x1 := rfl
@[simp] theorem Engine.illegalCommand_doneIE (e : Engine) : e.illegalCommand.doneIE = e.doneIE := rfl
@[simp] theorem Engine.illegalCommand_errIE (e : Engine) : e.illegalCommand.errIE = e.errIE := rfl
@[simp] theorem Engine.illegalCommand_pending (e : Engine) : e.illegalCommand.pending = e.pending := rfl
@[simp] theorem Engine.illegalCommand_progress (e : Engine) : e.illegalCommand.progress = e.progress := rfl

/-! ### Engine.clearStatus -/

@[simp] theorem Engine.clearStatus_v (e : Engine) (x : Word) : (e.clearStatus x).v = e.v := rfl
@[simp] theorem Engine.clearStatus_blk (e : Engine) (x : Word) : (e.clearStatus x).blk = e.blk := rfl
@[simp] theorem Engine.clearStatus_r (e : Engine) (x : Word) : (e.clearStatus x).r = e.r := rfl
@[simp] theorem Engine.clearStatus_w (e : Engine) (x : Word) : (e.clearStatus x).w = e.w := rfl
@[simp] theorem Engine.clearStatus_wp (e : Engine) (x : Word) : (e.clearStatus x).wp = e.wp := rfl
@[simp] theorem Engine.clearStatus_j (e : Engine) (x : Word) : (e.clearStatus x).j = e.j := rfl
@[simp] theorem Engine.clearStatus_msgAddr (e : Engine) (x : Word) : (e.clearStatus x).msgAddr = e.msgAddr := rfl
@[simp] theorem Engine.clearStatus_msgLen (e : Engine) (x : Word) : (e.clearStatus x).msgLen = e.msgLen := rfl
@[simp] theorem Engine.clearStatus_done (e : Engine) (x : Word) : (e.clearStatus x).done = (e.done && !x[1]) := rfl
@[simp] theorem Engine.clearStatus_err (e : Engine) (x : Word) : (e.clearStatus x).err = (e.err && !x[2]) := rfl
@[simp] theorem Engine.clearStatus_ovr (e : Engine) (x : Word) : (e.clearStatus x).ovr = (e.ovr && !x[3]) := rfl
@[simp] theorem Engine.clearStatus_errCode (e : Engine) (x : Word) :
    (e.clearStatus x).errCode =
      if x[2] then 0 else e.errCode := rfl
@[simp] theorem Engine.clearStatus_doneIE (e : Engine) (x : Word) : (e.clearStatus x).doneIE = e.doneIE := rfl
@[simp] theorem Engine.clearStatus_errIE (e : Engine) (x : Word) : (e.clearStatus x).errIE = e.errIE := rfl
@[simp] theorem Engine.clearStatus_pending (e : Engine) (x : Word) : (e.clearStatus x).pending = e.pending := rfl
@[simp] theorem Engine.clearStatus_progress (e : Engine) (x : Word) : (e.clearStatus x).progress = e.progress := rfl

/-! ### Engine.writeInten -/

@[simp] theorem Engine.writeInten_v (e : Engine) (x : Word) : (e.writeInten x).v = e.v := rfl
@[simp] theorem Engine.writeInten_blk (e : Engine) (x : Word) : (e.writeInten x).blk = e.blk := rfl
@[simp] theorem Engine.writeInten_r (e : Engine) (x : Word) : (e.writeInten x).r = e.r := rfl
@[simp] theorem Engine.writeInten_w (e : Engine) (x : Word) : (e.writeInten x).w = e.w := rfl
@[simp] theorem Engine.writeInten_wp (e : Engine) (x : Word) : (e.writeInten x).wp = e.wp := rfl
@[simp] theorem Engine.writeInten_j (e : Engine) (x : Word) : (e.writeInten x).j = e.j := rfl
@[simp] theorem Engine.writeInten_msgAddr (e : Engine) (x : Word) : (e.writeInten x).msgAddr = e.msgAddr := rfl
@[simp] theorem Engine.writeInten_msgLen (e : Engine) (x : Word) : (e.writeInten x).msgLen = e.msgLen := rfl
@[simp] theorem Engine.writeInten_done (e : Engine) (x : Word) : (e.writeInten x).done = e.done := rfl
@[simp] theorem Engine.writeInten_err (e : Engine) (x : Word) : (e.writeInten x).err = e.err := rfl
@[simp] theorem Engine.writeInten_ovr (e : Engine) (x : Word) : (e.writeInten x).ovr = e.ovr := rfl
@[simp] theorem Engine.writeInten_errCode (e : Engine) (x : Word) : (e.writeInten x).errCode = e.errCode := rfl
@[simp] theorem Engine.writeInten_doneIE (e : Engine) (x : Word) : (e.writeInten x).doneIE = x[0] := rfl
@[simp] theorem Engine.writeInten_errIE (e : Engine) (x : Word) : (e.writeInten x).errIE = x[1] := rfl
@[simp] theorem Engine.writeInten_pending (e : Engine) (x : Word) : (e.writeInten x).pending = e.pending := rfl
@[simp] theorem Engine.writeInten_progress (e : Engine) (x : Word) : (e.writeInten x).progress = e.progress := rfl

/-! ### Engine.scramble -/

@[simp] theorem Engine.scramble_msgAddr (e : Engine) (d : Nat) : (e.scramble d).msgAddr = e.msgAddr := rfl
@[simp] theorem Engine.scramble_msgLen (e : Engine) (d : Nat) : (e.scramble d).msgLen = e.msgLen := rfl
@[simp] theorem Engine.scramble_done (e : Engine) (d : Nat) : (e.scramble d).done = e.done := rfl
@[simp] theorem Engine.scramble_err (e : Engine) (d : Nat) : (e.scramble d).err = e.err := rfl
@[simp] theorem Engine.scramble_ovr (e : Engine) (d : Nat) : (e.scramble d).ovr = e.ovr := rfl
@[simp] theorem Engine.scramble_errCode (e : Engine) (d : Nat) : (e.scramble d).errCode = e.errCode := rfl
@[simp] theorem Engine.scramble_doneIE (e : Engine) (d : Nat) : (e.scramble d).doneIE = e.doneIE := rfl
@[simp] theorem Engine.scramble_errIE (e : Engine) (d : Nat) : (e.scramble d).errIE = e.errIE := rfl
@[simp] theorem Engine.scramble_pending (e : Engine) (d : Nat) : (e.scramble d).pending = e.pending := rfl
@[simp] theorem Engine.scramble_progress (e : Engine) (d : Nat) : (e.scramble d).progress = e.progress := rfl

/-! ### Engine.expandBlock -/

@[simp] theorem Engine.expandBlock_v (e : Engine) : e.expandBlock.v = e.v := by
  simp only [Engine.expandBlock]
@[simp] theorem Engine.expandBlock_blk (e : Engine) :
    e.expandBlock.blk =
      e.blk := by
  simp only [Engine.expandBlock]
@[simp] theorem Engine.expandBlock_r (e : Engine) : e.expandBlock.r = e.r := by
  simp only [Engine.expandBlock]
@[simp] theorem Engine.expandBlock_w (e : Engine) :
    e.expandBlock.w =
      expandWords e.blk := by
  simp only [Engine.expandBlock]
@[simp] theorem Engine.expandBlock_wp (e : Engine) :
    e.expandBlock.wp =
      primeWords (expandWords e.blk) := by
  simp only [Engine.expandBlock]
@[simp] theorem Engine.expandBlock_j (e : Engine) : e.expandBlock.j = e.j := by
  simp only [Engine.expandBlock]
@[simp] theorem Engine.expandBlock_msgAddr (e : Engine) :
    e.expandBlock.msgAddr =
      e.msgAddr := by
  simp only [Engine.expandBlock]
@[simp] theorem Engine.expandBlock_msgLen (e : Engine) :
    e.expandBlock.msgLen =
      e.msgLen := by
  simp only [Engine.expandBlock]
@[simp] theorem Engine.expandBlock_done (e : Engine) :
    e.expandBlock.done =
      e.done := by
  simp only [Engine.expandBlock]
@[simp] theorem Engine.expandBlock_err (e : Engine) :
    e.expandBlock.err =
      e.err := by
  simp only [Engine.expandBlock]
@[simp] theorem Engine.expandBlock_ovr (e : Engine) :
    e.expandBlock.ovr =
      e.ovr := by
  simp only [Engine.expandBlock]
@[simp] theorem Engine.expandBlock_errCode (e : Engine) :
    e.expandBlock.errCode =
      e.errCode := by
  simp only [Engine.expandBlock]
@[simp] theorem Engine.expandBlock_doneIE (e : Engine) :
    e.expandBlock.doneIE =
      e.doneIE := by
  simp only [Engine.expandBlock]
@[simp] theorem Engine.expandBlock_errIE (e : Engine) :
    e.expandBlock.errIE =
      e.errIE := by
  simp only [Engine.expandBlock]
@[simp] theorem Engine.expandBlock_pending (e : Engine) :
    e.expandBlock.pending =
      e.pending := by
  simp only [Engine.expandBlock]
@[simp] theorem Engine.expandBlock_progress (e : Engine) :
    e.expandBlock.progress =
      e.progress := by
  simp only [Engine.expandBlock]

/-! ### Engine.loadRound -/

@[simp] theorem Engine.loadRound_v (e : Engine) : e.loadRound.v = e.v := rfl
@[simp] theorem Engine.loadRound_blk (e : Engine) : e.loadRound.blk = e.blk := rfl
@[simp] theorem Engine.loadRound_r (e : Engine) : e.loadRound.r = e.v := rfl
@[simp] theorem Engine.loadRound_w (e : Engine) : e.loadRound.w = e.w := rfl
@[simp] theorem Engine.loadRound_wp (e : Engine) : e.loadRound.wp = e.wp := rfl
@[simp] theorem Engine.loadRound_j (e : Engine) : e.loadRound.j = 0 := rfl
@[simp] theorem Engine.loadRound_msgAddr (e : Engine) : e.loadRound.msgAddr = e.msgAddr := rfl
@[simp] theorem Engine.loadRound_msgLen (e : Engine) : e.loadRound.msgLen = e.msgLen := rfl
@[simp] theorem Engine.loadRound_done (e : Engine) : e.loadRound.done = e.done := rfl
@[simp] theorem Engine.loadRound_err (e : Engine) : e.loadRound.err = e.err := rfl
@[simp] theorem Engine.loadRound_ovr (e : Engine) : e.loadRound.ovr = e.ovr := rfl
@[simp] theorem Engine.loadRound_errCode (e : Engine) : e.loadRound.errCode = e.errCode := rfl
@[simp] theorem Engine.loadRound_doneIE (e : Engine) : e.loadRound.doneIE = e.doneIE := rfl
@[simp] theorem Engine.loadRound_errIE (e : Engine) : e.loadRound.errIE = e.errIE := rfl
@[simp] theorem Engine.loadRound_pending (e : Engine) : e.loadRound.pending = e.pending := rfl
@[simp] theorem Engine.loadRound_progress (e : Engine) : e.loadRound.progress = e.progress := rfl

/-! ### Engine.stepRound -/

@[simp] theorem Engine.stepRound_v (e : Engine) : e.stepRound.v = e.v := rfl
@[simp] theorem Engine.stepRound_blk (e : Engine) : e.stepRound.blk = e.blk := rfl
@[simp] theorem Engine.stepRound_r (e : Engine) :
    e.stepRound.r =
      roundFn e.r e.j.toNat e.w[e.j.toNat]! e.wp[e.j.toNat]! := rfl
@[simp] theorem Engine.stepRound_w (e : Engine) : e.stepRound.w = e.w := rfl
@[simp] theorem Engine.stepRound_wp (e : Engine) : e.stepRound.wp = e.wp := rfl
@[simp] theorem Engine.stepRound_j (e : Engine) : e.stepRound.j = e.j + 1 := rfl
@[simp] theorem Engine.stepRound_msgAddr (e : Engine) : e.stepRound.msgAddr = e.msgAddr := rfl
@[simp] theorem Engine.stepRound_msgLen (e : Engine) : e.stepRound.msgLen = e.msgLen := rfl
@[simp] theorem Engine.stepRound_done (e : Engine) : e.stepRound.done = e.done := rfl
@[simp] theorem Engine.stepRound_err (e : Engine) : e.stepRound.err = e.err := rfl
@[simp] theorem Engine.stepRound_ovr (e : Engine) : e.stepRound.ovr = e.ovr := rfl
@[simp] theorem Engine.stepRound_errCode (e : Engine) : e.stepRound.errCode = e.errCode := rfl
@[simp] theorem Engine.stepRound_doneIE (e : Engine) : e.stepRound.doneIE = e.doneIE := rfl
@[simp] theorem Engine.stepRound_errIE (e : Engine) : e.stepRound.errIE = e.errIE := rfl
@[simp] theorem Engine.stepRound_pending (e : Engine) : e.stepRound.pending = e.pending := rfl
@[simp] theorem Engine.stepRound_progress (e : Engine) : e.stepRound.progress = e.progress := rfl

/-! ### Engine.foldRound -/

@[simp] theorem Engine.foldRound_v (e : Engine) : e.foldRound.v = xorWords e.v e.r := rfl
@[simp] theorem Engine.foldRound_blk (e : Engine) : e.foldRound.blk = e.blk := rfl
@[simp] theorem Engine.foldRound_r (e : Engine) : e.foldRound.r = e.r := rfl
@[simp] theorem Engine.foldRound_w (e : Engine) : e.foldRound.w = e.w := rfl
@[simp] theorem Engine.foldRound_wp (e : Engine) : e.foldRound.wp = e.wp := rfl
@[simp] theorem Engine.foldRound_j (e : Engine) : e.foldRound.j = e.j := rfl
@[simp] theorem Engine.foldRound_msgAddr (e : Engine) : e.foldRound.msgAddr = e.msgAddr := rfl
@[simp] theorem Engine.foldRound_msgLen (e : Engine) : e.foldRound.msgLen = e.msgLen := rfl
@[simp] theorem Engine.foldRound_done (e : Engine) : e.foldRound.done = e.done := rfl
@[simp] theorem Engine.foldRound_err (e : Engine) : e.foldRound.err = e.err := rfl
@[simp] theorem Engine.foldRound_ovr (e : Engine) : e.foldRound.ovr = e.ovr := rfl
@[simp] theorem Engine.foldRound_errCode (e : Engine) : e.foldRound.errCode = e.errCode := rfl
@[simp] theorem Engine.foldRound_doneIE (e : Engine) : e.foldRound.doneIE = e.doneIE := rfl
@[simp] theorem Engine.foldRound_errIE (e : Engine) : e.foldRound.errIE = e.errIE := rfl
@[simp] theorem Engine.foldRound_pending (e : Engine) : e.foldRound.pending = e.pending := rfl
@[simp] theorem Engine.foldRound_progress (e : Engine) : e.foldRound.progress = e.progress := rfl

/-! ### Engine.runRounds -/

@[simp] theorem Engine.runRounds_v (e : Engine) : e.runRounds.v = e.v := rfl
@[simp] theorem Engine.runRounds_blk (e : Engine) : e.runRounds.blk = e.blk := rfl
@[simp] theorem Engine.runRounds_r (e : Engine) : e.runRounds.r = roundsTo 64 e.v e.w e.wp := rfl
@[simp] theorem Engine.runRounds_w (e : Engine) : e.runRounds.w = e.w := rfl
@[simp] theorem Engine.runRounds_wp (e : Engine) : e.runRounds.wp = e.wp := rfl
@[simp] theorem Engine.runRounds_j (e : Engine) : e.runRounds.j = 64 := rfl
@[simp] theorem Engine.runRounds_msgAddr (e : Engine) : e.runRounds.msgAddr = e.msgAddr := rfl
@[simp] theorem Engine.runRounds_msgLen (e : Engine) : e.runRounds.msgLen = e.msgLen := rfl
@[simp] theorem Engine.runRounds_done (e : Engine) : e.runRounds.done = e.done := rfl
@[simp] theorem Engine.runRounds_err (e : Engine) : e.runRounds.err = e.err := rfl
@[simp] theorem Engine.runRounds_ovr (e : Engine) : e.runRounds.ovr = e.ovr := rfl
@[simp] theorem Engine.runRounds_errCode (e : Engine) : e.runRounds.errCode = e.errCode := rfl
@[simp] theorem Engine.runRounds_doneIE (e : Engine) : e.runRounds.doneIE = e.doneIE := rfl
@[simp] theorem Engine.runRounds_errIE (e : Engine) : e.runRounds.errIE = e.errIE := rfl
@[simp] theorem Engine.runRounds_pending (e : Engine) : e.runRounds.pending = e.pending := rfl
@[simp] theorem Engine.runRounds_progress (e : Engine) : e.runRounds.progress = e.progress := rfl

/-! ### Engine.compressBlock -/

@[simp] theorem Engine.compressBlock_v (e : Engine) :
    e.compressBlock.v =
      cf e.v e.blk := by
  simp only [Engine.compressBlock, Engine.foldRound, Engine.runRounds, Engine.expandBlock, cf]
@[simp] theorem Engine.compressBlock_blk (e : Engine) :
    e.compressBlock.blk =
      e.blk := by
  simp only [Engine.compressBlock, Engine.foldRound, Engine.runRounds, Engine.expandBlock]
@[simp] theorem Engine.compressBlock_r (e : Engine) :
    e.compressBlock.r =
      roundsTo 64 e.v (expandWords e.blk) (primeWords (expandWords e.blk)) := by
  simp only [Engine.compressBlock, Engine.foldRound, Engine.runRounds, Engine.expandBlock]
@[simp] theorem Engine.compressBlock_w (e : Engine) :
    e.compressBlock.w =
      expandWords e.blk := by
  simp only [Engine.compressBlock, Engine.foldRound, Engine.runRounds, Engine.expandBlock]
@[simp] theorem Engine.compressBlock_wp (e : Engine) :
    e.compressBlock.wp =
      primeWords (expandWords e.blk) := by
  simp only [Engine.compressBlock, Engine.foldRound, Engine.runRounds, Engine.expandBlock]
@[simp] theorem Engine.compressBlock_j (e : Engine) :
    e.compressBlock.j =
      64 := by
  simp only [Engine.compressBlock, Engine.foldRound, Engine.runRounds, Engine.expandBlock]
@[simp] theorem Engine.compressBlock_msgAddr (e : Engine) :
    e.compressBlock.msgAddr =
      e.msgAddr := by
  simp only [Engine.compressBlock, Engine.foldRound, Engine.runRounds, Engine.expandBlock]
@[simp] theorem Engine.compressBlock_msgLen (e : Engine) :
    e.compressBlock.msgLen =
      e.msgLen := by
  simp only [Engine.compressBlock, Engine.foldRound, Engine.runRounds, Engine.expandBlock]
@[simp] theorem Engine.compressBlock_done (e : Engine) :
    e.compressBlock.done =
      e.done := by
  simp only [Engine.compressBlock, Engine.foldRound, Engine.runRounds, Engine.expandBlock]
@[simp] theorem Engine.compressBlock_err (e : Engine) :
    e.compressBlock.err =
      e.err := by
  simp only [Engine.compressBlock, Engine.foldRound, Engine.runRounds, Engine.expandBlock]
@[simp] theorem Engine.compressBlock_ovr (e : Engine) :
    e.compressBlock.ovr =
      e.ovr := by
  simp only [Engine.compressBlock, Engine.foldRound, Engine.runRounds, Engine.expandBlock]
@[simp] theorem Engine.compressBlock_errCode (e : Engine) :
    e.compressBlock.errCode =
      e.errCode := by
  simp only [Engine.compressBlock, Engine.foldRound, Engine.runRounds, Engine.expandBlock]
@[simp] theorem Engine.compressBlock_doneIE (e : Engine) :
    e.compressBlock.doneIE =
      e.doneIE := by
  simp only [Engine.compressBlock, Engine.foldRound, Engine.runRounds, Engine.expandBlock]
@[simp] theorem Engine.compressBlock_errIE (e : Engine) :
    e.compressBlock.errIE =
      e.errIE := by
  simp only [Engine.compressBlock, Engine.foldRound, Engine.runRounds, Engine.expandBlock]
@[simp] theorem Engine.compressBlock_pending (e : Engine) :
    e.compressBlock.pending =
      e.pending := by
  simp only [Engine.compressBlock, Engine.foldRound, Engine.runRounds, Engine.expandBlock]
@[simp] theorem Engine.compressBlock_progress (e : Engine) :
    e.compressBlock.progress =
      e.progress := by
  simp only [Engine.compressBlock, Engine.foldRound, Engine.runRounds, Engine.expandBlock]

/-! ### Engine.seedV -/

@[simp] theorem Engine.seedV_v (e : Engine) : e.seedV.v = iv := rfl
@[simp] theorem Engine.seedV_blk (e : Engine) : e.seedV.blk = e.blk := rfl
@[simp] theorem Engine.seedV_r (e : Engine) : e.seedV.r = e.r := rfl
@[simp] theorem Engine.seedV_w (e : Engine) : e.seedV.w = e.w := rfl
@[simp] theorem Engine.seedV_wp (e : Engine) : e.seedV.wp = e.wp := rfl
@[simp] theorem Engine.seedV_j (e : Engine) : e.seedV.j = e.j := rfl
@[simp] theorem Engine.seedV_msgAddr (e : Engine) : e.seedV.msgAddr = e.msgAddr := rfl
@[simp] theorem Engine.seedV_msgLen (e : Engine) : e.seedV.msgLen = e.msgLen := rfl
@[simp] theorem Engine.seedV_done (e : Engine) : e.seedV.done = e.done := rfl
@[simp] theorem Engine.seedV_err (e : Engine) : e.seedV.err = e.err := rfl
@[simp] theorem Engine.seedV_ovr (e : Engine) : e.seedV.ovr = e.ovr := rfl
@[simp] theorem Engine.seedV_errCode (e : Engine) : e.seedV.errCode = e.errCode := rfl
@[simp] theorem Engine.seedV_doneIE (e : Engine) : e.seedV.doneIE = e.doneIE := rfl
@[simp] theorem Engine.seedV_errIE (e : Engine) : e.seedV.errIE = e.errIE := rfl
@[simp] theorem Engine.seedV_pending (e : Engine) : e.seedV.pending = e.pending := rfl
@[simp] theorem Engine.seedV_progress (e : Engine) : e.seedV.progress = e.progress := rfl

/-! ### Engine.busy, and the block step of HASH -/

@[simp] theorem Engine.complete_busy (e : Engine) : e.complete.busy = false := rfl
@[simp] theorem Engine.raiseError_busy (e : Engine) (c : ErrorCode) : (e.raiseError c).busy = false := rfl
@[simp] theorem Engine.startCommand_busy (e : Engine) (c : Word) : (e.startCommand c).busy = true := rfl
@[simp] theorem Engine.illegalCommand_busy (e : Engine) : e.illegalCommand.busy = e.busy := rfl
@[simp] theorem Engine.clearStatus_busy (e : Engine) (x : Word) : (e.clearStatus x).busy = e.busy := rfl
@[simp] theorem Engine.writeInten_busy (e : Engine) (x : Word) : (e.writeInten x).busy = e.busy := rfl
@[simp] theorem Engine.reset_busy : Engine.reset.busy = false := rfl

@[simp] theorem Engine.hashBlock_blk (e : Engine) (k : Nat) : (e.hashBlock k).blk =
    blockWords (pad e.progress.bytes) k := by
  simp [Engine.hashBlock]
@[simp] theorem Engine.hashBlock_w (e : Engine) (k : Nat) : (e.hashBlock k).w =
    expandWords (blockWords (pad e.progress.bytes) k) := by
  simp [Engine.hashBlock]
@[simp] theorem Engine.hashBlock_wp (e : Engine) (k : Nat) : (e.hashBlock k).wp =
    primeWords (expandWords (blockWords (pad e.progress.bytes) k)) := by
  simp [Engine.hashBlock]
@[simp] theorem Engine.hashBlock_j (e : Engine) (k : Nat) : (e.hashBlock k).j = 64 := by
  simp [Engine.hashBlock]
@[simp] theorem Engine.hashBlock_msgAddr (e : Engine) (k : Nat) : (e.hashBlock k).msgAddr = e.msgAddr := by
  unfold Engine.hashBlock; split <;> simp
@[simp] theorem Engine.hashBlock_msgLen (e : Engine) (k : Nat) : (e.hashBlock k).msgLen = e.msgLen := by
  unfold Engine.hashBlock; split <;> simp
@[simp] theorem Engine.hashBlock_done (e : Engine) (k : Nat) : (e.hashBlock k).done = e.done := by
  unfold Engine.hashBlock; split <;> simp
@[simp] theorem Engine.hashBlock_err (e : Engine) (k : Nat) : (e.hashBlock k).err = e.err := by
  unfold Engine.hashBlock; split <;> simp
@[simp] theorem Engine.hashBlock_ovr (e : Engine) (k : Nat) : (e.hashBlock k).ovr = e.ovr := by
  unfold Engine.hashBlock; split <;> simp
@[simp] theorem Engine.hashBlock_errCode (e : Engine) (k : Nat) : (e.hashBlock k).errCode = e.errCode := by
  unfold Engine.hashBlock; split <;> simp
@[simp] theorem Engine.hashBlock_doneIE (e : Engine) (k : Nat) : (e.hashBlock k).doneIE = e.doneIE := by
  unfold Engine.hashBlock; split <;> simp
@[simp] theorem Engine.hashBlock_errIE (e : Engine) (k : Nat) : (e.hashBlock k).errIE = e.errIE := by
  unfold Engine.hashBlock; split <;> simp
@[simp] theorem Engine.hashBlock_pending (e : Engine) (k : Nat) : (e.hashBlock k).pending = e.pending := by
  unfold Engine.hashBlock; split <;> simp
@[simp] theorem Engine.hashBlock_progress (e : Engine) (k : Nat) : (e.hashBlock k).progress = e.progress := by
  unfold Engine.hashBlock; split <;> simp

/-! ### State.startCommand -/

@[simp] theorem State.startCommand_engine (s : State) (c : Word) :
    (s.startCommand c).engine =
      s.engine.startCommand c := rfl
@[simp] theorem State.startCommand_mem (s : State) (c : Word) : (s.startCommand c).mem = s.mem := rfl
@[simp] theorem State.startCommand_platform (s : State) (c : Word) : (s.startCommand c).platform = s.platform := rfl
@[simp] theorem State.startCommand_racing (s : State) (c : Word) : (s.startCommand c).racing = [] := rfl
@[simp] theorem State.startCommand_held (s : State) (c : Word) : (s.startCommand c).held = s.held := rfl
@[simp] theorem State.startCommand_draws (s : State) (c : Word) : (s.startCommand c).draws = s.draws := rfl
@[simp] theorem State.startCommand_inputs (s : State) (c : Word) : (s.startCommand c).inputs = s.inputs := rfl
@[simp] theorem State.startCommand_replies (s : State) (c : Word) : (s.startCommand c).replies = s.replies := rfl
@[simp] theorem State.startCommand_portReads (s : State) (c : Word) :
    (s.startCommand c).portReads =
      s.portReads := rfl
@[simp] theorem State.startCommand_resetAsserted (s : State) (c : Word) :
    (s.startCommand c).resetAsserted =
      s.resetAsserted := rfl

/-! ### State.completeWith -/

@[simp] theorem State.completeWith_engine (s : State) (e : Engine) : (s.completeWith e).engine = e.complete := rfl
@[simp] theorem State.completeWith_mem (s : State) (e : Engine) : (s.completeWith e).mem = s.mem := rfl
@[simp] theorem State.completeWith_platform (s : State) (e : Engine) :
    (s.completeWith e).platform =
      s.platform := rfl
@[simp] theorem State.completeWith_racing (s : State) (e : Engine) : (s.completeWith e).racing = [] := rfl
@[simp] theorem State.completeWith_held (s : State) (e : Engine) : (s.completeWith e).held = s.held := rfl
@[simp] theorem State.completeWith_draws (s : State) (e : Engine) : (s.completeWith e).draws = s.draws := rfl
@[simp] theorem State.completeWith_inputs (s : State) (e : Engine) : (s.completeWith e).inputs = s.inputs := rfl
@[simp] theorem State.completeWith_replies (s : State) (e : Engine) : (s.completeWith e).replies = s.replies := rfl
@[simp] theorem State.completeWith_portReads (s : State) (e : Engine) :
    (s.completeWith e).portReads =
      s.portReads := rfl
@[simp] theorem State.completeWith_resetAsserted (s : State) (e : Engine) :
    (s.completeWith e).resetAsserted =
      s.resetAsserted := rfl

/-! ### State.failWith -/

@[simp] theorem State.failWith_engine (s : State) (c : ErrorCode) :
    (s.failWith c).engine =
      s.engine.raiseError c := rfl
@[simp] theorem State.failWith_mem (s : State) (c : ErrorCode) : (s.failWith c).mem = s.mem := rfl
@[simp] theorem State.failWith_platform (s : State) (c : ErrorCode) : (s.failWith c).platform = s.platform := rfl
@[simp] theorem State.failWith_racing (s : State) (c : ErrorCode) : (s.failWith c).racing = [] := rfl
@[simp] theorem State.failWith_held (s : State) (c : ErrorCode) : (s.failWith c).held = s.held := rfl
@[simp] theorem State.failWith_draws (s : State) (c : ErrorCode) : (s.failWith c).draws = s.draws := rfl
@[simp] theorem State.failWith_inputs (s : State) (c : ErrorCode) : (s.failWith c).inputs = s.inputs := rfl
@[simp] theorem State.failWith_replies (s : State) (c : ErrorCode) : (s.failWith c).replies = s.replies := rfl
@[simp] theorem State.failWith_portReads (s : State) (c : ErrorCode) : (s.failWith c).portReads = s.portReads := rfl
@[simp] theorem State.failWith_resetAsserted (s : State) (c : ErrorCode) :
    (s.failWith c).resetAsserted =
      s.resetAsserted := rfl

/-! ### State.failBusError -/

@[simp] theorem State.failBusError_engine (s : State) :
    s.failBusError.engine =
      (s.engine.scramble s.draws).raiseError .busError := rfl
@[simp] theorem State.failBusError_mem (s : State) : s.failBusError.mem = s.mem := rfl
@[simp] theorem State.failBusError_platform (s : State) : s.failBusError.platform = s.platform := rfl
@[simp] theorem State.failBusError_racing (s : State) : s.failBusError.racing = [] := rfl
@[simp] theorem State.failBusError_held (s : State) : s.failBusError.held = s.held := rfl
@[simp] theorem State.failBusError_draws (s : State) : s.failBusError.draws = s.draws + 165 := rfl
@[simp] theorem State.failBusError_inputs (s : State) : s.failBusError.inputs = s.inputs := rfl
@[simp] theorem State.failBusError_replies (s : State) : s.failBusError.replies = s.replies := rfl
@[simp] theorem State.failBusError_portReads (s : State) : s.failBusError.portReads = s.portReads := rfl
@[simp] theorem State.failBusError_resetAsserted (s : State) : s.failBusError.resetAsserted = s.resetAsserted := rfl

/-! ### State.storeByte -/

@[simp] theorem State.storeByte_engine (s : State) (g : Agent) (a : Word) (b : Byte) :
    (s.storeByte g a b).engine =
      s.engine := by
  unfold State.storeByte; split <;> rfl
@[simp] theorem State.storeByte_platform (s : State) (g : Agent) (a : Word) (b : Byte) :
    (s.storeByte g a b).platform =
      s.platform := by
  unfold State.storeByte; split <;> rfl
@[simp] theorem State.storeByte_draws (s : State) (g : Agent) (a : Word) (b : Byte) :
    (s.storeByte g a b).draws =
      s.draws := by
  unfold State.storeByte; split <;> rfl
@[simp] theorem State.storeByte_inputs (s : State) (g : Agent) (a : Word) (b : Byte) :
    (s.storeByte g a b).inputs =
      s.inputs := by
  unfold State.storeByte; split <;> rfl
@[simp] theorem State.storeByte_replies (s : State) (g : Agent) (a : Word) (b : Byte) :
    (s.storeByte g a b).replies =
      s.replies := by
  unfold State.storeByte; split <;> rfl
@[simp] theorem State.storeByte_portReads (s : State) (g : Agent) (a : Word) (b : Byte) :
    (s.storeByte g a b).portReads =
      s.portReads := by
  unfold State.storeByte; split <;> rfl
@[simp] theorem State.storeByte_resetAsserted (s : State) (g : Agent) (a : Word) (b : Byte) :
    (s.storeByte g a b).resetAsserted =
      s.resetAsserted := by
  unfold State.storeByte; split <;> rfl

/-! ### State.reachMemory -/

@[simp] theorem State.reachMemory_engine (s : State) (a : Word) (b : Byte) :
    (s.reachMemory a b).engine =
      s.engine := rfl
@[simp] theorem State.reachMemory_mem (s : State) (a : Word) (b : Byte) :
    (s.reachMemory a b).mem =
      s.mem.write a.toNat b := rfl
@[simp] theorem State.reachMemory_platform (s : State) (a : Word) (b : Byte) :
    (s.reachMemory a b).platform =
      s.platform := rfl
@[simp] theorem State.reachMemory_draws (s : State) (a : Word) (b : Byte) :
    (s.reachMemory a b).draws =
      s.draws := rfl
@[simp] theorem State.reachMemory_inputs (s : State) (a : Word) (b : Byte) :
    (s.reachMemory a b).inputs =
      s.inputs := rfl
@[simp] theorem State.reachMemory_replies (s : State) (a : Word) (b : Byte) :
    (s.reachMemory a b).replies =
      s.replies := rfl
@[simp] theorem State.reachMemory_portReads (s : State) (a : Word) (b : Byte) :
    (s.reachMemory a b).portReads =
      s.portReads := rfl
@[simp] theorem State.reachMemory_resetAsserted (s : State) (a : Word) (b : Byte) :
    (s.reachMemory a b).resetAsserted =
      s.resetAsserted := rfl

/-! ### State.makeVisible -/

@[simp] theorem State.makeVisible_engine (s : State) (a : Word) : (s.makeVisible a).engine = s.engine := rfl
@[simp] theorem State.makeVisible_mem (s : State) (a : Word) :
    (s.makeVisible a).mem =
      s.mem.write a.toNat (s.settledByte a.toNat s.draws) := rfl
@[simp] theorem State.makeVisible_platform (s : State) (a : Word) : (s.makeVisible a).platform = s.platform := rfl
@[simp] theorem State.makeVisible_held (s : State) (a : Word) :
    (s.makeVisible a).held =
      s.held.filter fun h => h.addr != a.toNat := rfl
@[simp] theorem State.makeVisible_draws (s : State) (a : Word) : (s.makeVisible a).draws = s.draws + 1 := rfl
@[simp] theorem State.makeVisible_inputs (s : State) (a : Word) : (s.makeVisible a).inputs = s.inputs := rfl
@[simp] theorem State.makeVisible_replies (s : State) (a : Word) : (s.makeVisible a).replies = s.replies := rfl
@[simp] theorem State.makeVisible_portReads (s : State) (a : Word) : (s.makeVisible a).portReads = s.portReads := rfl
@[simp] theorem State.makeVisible_resetAsserted (s : State) (a : Word) :
    (s.makeVisible a).resetAsserted =
      s.resetAsserted := rfl

/-! ### State.afterReads -/

@[simp] theorem State.afterReads_mem (s : State) (x : List Byte × Bool) : (s.afterReads x).mem = s.mem := rfl
@[simp] theorem State.afterReads_platform (s : State) (x : List Byte × Bool) :
    (s.afterReads x).platform =
      s.platform := rfl
@[simp] theorem State.afterReads_racing (s : State) (x : List Byte × Bool) :
    (s.afterReads x).racing =
      s.racing := rfl
@[simp] theorem State.afterReads_held (s : State) (x : List Byte × Bool) : (s.afterReads x).held = s.held := rfl
@[simp] theorem State.afterReads_inputs (s : State) (x : List Byte × Bool) :
    (s.afterReads x).inputs =
      s.inputs := rfl
@[simp] theorem State.afterReads_replies (s : State) (x : List Byte × Bool) :
    (s.afterReads x).replies =
      s.replies := rfl
@[simp] theorem State.afterReads_resetAsserted (s : State) (x : List Byte × Bool) :
    (s.afterReads x).resetAsserted =
      s.resetAsserted := rfl

/-! ### State.readReg -/

@[simp] theorem State.readReg_engine (s : State) (off : Offset) : (s.readReg off).engine = s.engine := rfl
@[simp] theorem State.readReg_mem (s : State) (off : Offset) : (s.readReg off).mem = s.mem := rfl
@[simp] theorem State.readReg_platform (s : State) (off : Offset) : (s.readReg off).platform = s.platform := rfl
@[simp] theorem State.readReg_racing (s : State) (off : Offset) : (s.readReg off).racing = s.racing := rfl
@[simp] theorem State.readReg_held (s : State) (off : Offset) : (s.readReg off).held = s.held := rfl
@[simp] theorem State.readReg_draws (s : State) (off : Offset) : (s.readReg off).draws = s.draws + 1 := rfl
@[simp] theorem State.readReg_inputs (s : State) (off : Offset) : (s.readReg off).inputs = s.inputs := rfl
@[simp] theorem State.readReg_portReads (s : State) (off : Offset) : (s.readReg off).portReads = s.portReads := rfl
@[simp] theorem State.readReg_resetAsserted (s : State) (off : Offset) :
    (s.readReg off).resetAsserted =
      s.resetAsserted := rfl

/-! ### State.replyBusError -/

@[simp] theorem State.replyBusError_engine (s : State) : s.replyBusError.engine = s.engine := rfl
@[simp] theorem State.replyBusError_mem (s : State) : s.replyBusError.mem = s.mem := rfl
@[simp] theorem State.replyBusError_platform (s : State) : s.replyBusError.platform = s.platform := rfl
@[simp] theorem State.replyBusError_racing (s : State) : s.replyBusError.racing = s.racing := rfl
@[simp] theorem State.replyBusError_held (s : State) : s.replyBusError.held = s.held := rfl
@[simp] theorem State.replyBusError_draws (s : State) : s.replyBusError.draws = s.draws := rfl
@[simp] theorem State.replyBusError_inputs (s : State) : s.replyBusError.inputs = s.inputs := rfl
@[simp] theorem State.replyBusError_replies (s : State) : s.replyBusError.replies = s.replies ++ [.busError] := rfl
@[simp] theorem State.replyBusError_portReads (s : State) : s.replyBusError.portReads = s.portReads := rfl
@[simp] theorem State.replyBusError_resetAsserted (s : State) :
    s.replyBusError.resetAsserted =
      s.resetAsserted := rfl

/-! ### State.assertReset -/

@[simp] theorem State.assertReset_engine (s : State) : s.assertReset.engine = Engine.reset := rfl
@[simp] theorem State.assertReset_mem (s : State) : s.assertReset.mem = s.mem := rfl
@[simp] theorem State.assertReset_platform (s : State) : s.assertReset.platform = s.platform := rfl
@[simp] theorem State.assertReset_racing (s : State) : s.assertReset.racing = [] := rfl
@[simp] theorem State.assertReset_held (s : State) : s.assertReset.held = s.held := rfl
@[simp] theorem State.assertReset_draws (s : State) : s.assertReset.draws = s.draws := rfl
@[simp] theorem State.assertReset_inputs (s : State) : s.assertReset.inputs = s.inputs := rfl
@[simp] theorem State.assertReset_replies (s : State) : s.assertReset.replies = s.replies := rfl
@[simp] theorem State.assertReset_portReads (s : State) : s.assertReset.portReads = s.portReads := rfl
@[simp] theorem State.assertReset_resetAsserted (s : State) : s.assertReset.resetAsserted = true := rfl

/-! ### State.releaseReset -/

@[simp] theorem State.releaseReset_engine (s : State) : s.releaseReset.engine = s.engine := rfl
@[simp] theorem State.releaseReset_mem (s : State) : s.releaseReset.mem = s.mem := rfl
@[simp] theorem State.releaseReset_platform (s : State) : s.releaseReset.platform = s.platform := rfl
@[simp] theorem State.releaseReset_racing (s : State) : s.releaseReset.racing = s.racing := rfl
@[simp] theorem State.releaseReset_held (s : State) : s.releaseReset.held = s.held := rfl
@[simp] theorem State.releaseReset_draws (s : State) : s.releaseReset.draws = s.draws := rfl
@[simp] theorem State.releaseReset_inputs (s : State) : s.releaseReset.inputs = s.inputs := rfl
@[simp] theorem State.releaseReset_replies (s : State) : s.releaseReset.replies = s.replies := rfl
@[simp] theorem State.releaseReset_portReads (s : State) : s.releaseReset.portReads = s.portReads := rfl
@[simp] theorem State.releaseReset_resetAsserted (s : State) : s.releaseReset.resetAsserted = false := rfl

end Sys2Proof.Machine
end

