-- ==== Sys2Proof/Laws/Compression.lean ====
section
/-! SUPPORT. The compression function (spec 43_compression.md R154, R155, R159). -/

namespace Sys2Proof.Machine

@[simp] theorem roundsTo_zero (s : Vector Word 8) (w : Vector Word 68) (wp : Vector Word 64) :
    roundsTo 0 s w wp = s := rfl

/-- One more round of the loop. -/
theorem roundsTo_succ (n : Nat) (s : Vector Word 8) (w : Vector Word 68) (wp : Vector Word 64) :
    roundsTo (n + 1) s w wp = roundFn (roundsTo n s w wp) n w[n]! wp[n]! := by
  unfold roundsTo
  rw [List.range_succ, List.foldl_append, List.foldl_cons, List.foldl_nil]

@[simp] theorem xorWords_getElem (x y : Vector Word 8) {i : Nat} (h : i < 8) :
    (xorWords x y)[i] = x[i] ^^^ y[i] := by
  simp [xorWords]

/-- Folding twice undoes the fold (R158). -/
theorem xorWords_xorWords (x y : Vector Word 8) : xorWords (xorWords x y) y = x := by
  apply Vector.ext
  intro i hi
  simp

/-- CF as the fold of the rounds (R155). -/
theorem cf_eq (v : Vector Word 8) (b : Vector Word 16) :
    cf v b = xorWords v (roundsTo 64 v (expandWords b) (primeWords (expandWords b))) := by
  simp only [cf]

end Sys2Proof.Machine
end

