-- ==== Sys2Proof/Laws/Memory.lean ====
section
/-! SUPPORT. The message space: reads after writes, the canonical form, the values a byte may read as, and a run of
reads (spec 20_memory.md R69, R70, R78). -/

namespace Sys2Proof.Machine

/-! ### Memory -/

@[simp] theorem Memory.read_nil (a : Nat) : Memory.read [] a = unlistedByte := rfl

@[simp] theorem Memory.read_cons (k : Nat) (b : Byte) (m : Memory) (a : Nat) :
    Memory.read ((k, b) :: m) a = if k = a then b else Memory.read m a := rfl

/-- A byte at an address below every listed one reads as the unlisted byte. -/
theorem Memory.read_of_lt (m : Memory) (a : Nat) (h : ∀ x ∈ m, a < x.1) : Memory.read m a = unlistedByte := by
  induction m with
  | nil => rfl
  | cons x m ih =>
    obtain ⟨k, b⟩ := x
    have hk : a < k := h (k, b) (by simp)
    rw [Memory.read_cons, if_neg (by omega)]
    exact ih fun y hy => h y (by simp [hy])

/-- A write leaves every other address alone. -/
theorem Memory.read_write_of_ne (m : Memory) {a x : Nat} (b : Byte) (h : x ≠ a) :
    (Memory.write m a b).read x = m.read x := by
  induction m with
  | nil => unfold Memory.write; split <;> simp [Ne.symm h]
  | cons y m ih =>
    obtain ⟨k, c⟩ := y
    have hk : a = k → k ≠ x := fun e => e ▸ h.symm
    unfold Memory.write
    split_ifs <;> simp_all [Ne.symm h]

/-- A write to a strictly rising memory is what the address then reads as. -/
theorem Memory.read_write_self (m : Memory) (a : Nat) (b : Byte) (h : m.Pairwise fun x y => x.1 < y.1) :
    (Memory.write m a b).read a = b := by
  induction m with
  | nil => unfold Memory.write; split <;> simp_all
  | cons y m ih =>
    obtain ⟨k, c⟩ := y
    rw [List.pairwise_cons] at h
    have tail : a ≤ k → Memory.read m a = unlistedByte := fun hk =>
      Memory.read_of_lt m a fun z hz => lt_of_le_of_lt hk (h.1 z hz)
    unfold Memory.write
    split_ifs with h1 h2 h3 h4
    · rw [Memory.read_cons, if_neg (by omega), tail (by omega), h2]
    · simp
    · rw [tail (by omega), h4]
    · simp
    · rw [Memory.read_cons, if_neg (by omega), ih h.2]

/-- The entries a write can leave: those there were, and the one written. -/
theorem Memory.mem_write {m : Memory} {a : Nat} {b : Byte} {x : Host.Cell} (h : x ∈ Memory.write m a b) :
    x ∈ m ∨ (x = (a, b) ∧ b ≠ unlistedByte) := by
  induction m with
  | nil => unfold Memory.write at h; split_ifs at h <;> simp_all
  | cons y m ih =>
    obtain ⟨k, c⟩ := y
    unfold Memory.write at h
    split_ifs at h
    all_goals simp only [List.mem_cons] at h ⊢
    all_goals tauto

theorem Memory.wf_iff (m : Memory) : m.wf = true ↔
    (m.Pairwise fun x y => x.1 < y.1) ∧ ∀ x ∈ m, x.1 < 2 ^ 32 ∧ x.2 ≠ unlistedByte := by
  simp [Memory.wf]

/-- Every write keeps the canonical form. -/
theorem Memory.write_wf {m : Memory} {a : Nat} (b : Byte) (h : m.wf = true) (ha : a < 2 ^ 32) :
    (Memory.write m a b).wf = true := by
  rw [Memory.wf_iff] at h ⊢
  obtain ⟨hs, hx⟩ := h
  refine ⟨?_, fun x h => ?_⟩
  · clear hx
    induction m with
    | nil => unfold Memory.write; split <;> simp
    | cons y m ih =>
      obtain ⟨k, c⟩ := y
      have hs' := List.pairwise_cons.mp hs
      unfold Memory.write
      split_ifs with h1 h2 h3 h4
      · exact hs
      · refine List.pairwise_cons.mpr ⟨fun z hz => ?_, hs⟩
        rcases List.mem_cons.mp hz with rfl | hz
        · exact h1
        · exact lt_trans h1 (hs'.1 z hz)
      · exact hs'.2
      · subst h3
        exact List.pairwise_cons.mpr ⟨fun z hz => hs'.1 z hz, hs'.2⟩
      · refine List.pairwise_cons.mpr ⟨fun z hz => ?_, ih hs'.2⟩
        rcases Memory.mem_write hz with hz | ⟨rfl, -⟩
        · exact hs'.1 z hz
        · show k < a; omega
  · rcases Memory.mem_write h with h | ⟨rfl, hb⟩
    · exact hx x h
    · exact ⟨ha, hb⟩

/-! ### The values a byte may read as -/

theorem State.mem_heldAt {s : State} {a : Nat} {h : HeldStore} : h ∈ s.heldAt a ↔ h ∈ s.held ∧ h.addr = a := by
  simp [State.heldAt]

theorem State.mem_otherValues {s : State} {a : Nat} {x : Byte} :
    x ∈ s.otherValues a ↔ (a, x) ∈ s.racing ∨ ∃ h ∈ s.heldAt a, h.value = x := by
  simp only [State.otherValues, List.mem_append, List.mem_map, List.mem_filter, beq_iff_eq]
  constructor
  · rintro (⟨⟨k, y⟩, ⟨h, rfl⟩, rfl⟩ | h)
    · exact .inl h
    · exact .inr h
  · rintro (h | h)
    · exact .inl ⟨(a, x), ⟨h, rfl⟩, rfl⟩
    · exact .inr h

/-- A read gives the byte held or one of the other values it may read as. -/
theorem State.byteAt_mem (s : State) (a d : Nat) : s.byteAt a d ∈ s.mem.read a :: s.otherValues a := by
  unfold State.byteAt
  cases h : (s.otherValues a)[Config.freeIndex d]? with
  | none => simp
  | some b => simp [List.mem_of_getElem? h]

/-- Where no store races or waits to be made visible, a read gives the byte held. -/
theorem State.byteAt_of_no_others (s : State) (a d : Nat) (h : s.otherValues a = []) :
    s.byteAt a d = s.mem.read a := by
  simp [State.byteAt, h]

/-- What a read of a byte depends on. -/
theorem State.byteAt_congr {s t : State} (hm : t.mem = s.mem) (hr : t.racing = s.racing)
    (hu : t.held = s.held) (a d : Nat) : t.byteAt a d = s.byteAt a d := by
  simp [State.byteAt, State.otherValues, State.heldAt, hm, hr, hu]

theorem State.memRead_congr {s t : State} (hm : t.mem = s.mem) (hr : t.racing = s.racing)
    (hu : t.held = s.held) (hp : t.platform = s.platform) (a d : Nat) :
    t.memRead a d = s.memRead a d := by
  simp [State.memRead, State.byteAt_congr hm hr hu, hp]

/-! ### Stores, and making host stores visible -/

/-- A host store on a platform that is not coherent is held (R76). -/
theorem State.storeByte_holds {s : State} {g : Agent} (a : Word) (b : Byte) (h : s.holdsStore g = true) :
    s.storeByte g a b = { s with held := { addr := a.toNat, value := b, overtaken := false } :: s.held } := by
  simp only [State.storeByte, h, if_true]

/-- Any other store completes. -/
theorem State.storeByte_completes {s : State} {g : Agent} (a : Word) (b : Byte) (h : s.holdsStore g = false) :
    s.storeByte g a b = s.reachMemory a b := by
  simp only [State.storeByte, h, Bool.false_eq_true, if_false]

theorem State.holdsStore_eq_true {s : State} {g : Agent} :
    s.holdsStore g = true ↔ g = .host ∧ s.platform.coherent = false := by
  simp [State.holdsStore]

theorem State.holdsStore_eq_false {s : State} {g : Agent} :
    s.holdsStore g = false ↔ g = .other ∨ s.platform.coherent = true := by
  cases g <;> simp [State.holdsStore]

/-- A byte that reaches memory overtakes the held stores to it and leaves their values. -/
theorem State.heldAt_reachMemory (s : State) (a : Word) (b : Byte) (x : Nat) : (s.reachMemory a b).heldAt x =
    (s.heldAt x).map fun h => { h with overtaken := h.overtaken || h.addr == a.toNat } := by
  simp only [State.heldAt, State.reachMemory, List.filter_map]
  rfl

/-- The values of the held stores to a byte after a byte reaches memory. -/
theorem State.heldAt_reachMemory_values (s : State) (a : Word) (b : Byte) (x : Nat) :
    ((s.reachMemory a b).heldAt x).map (·.value) = (s.heldAt x).map (·.value) := by
  rw [State.heldAt_reachMemory, List.map_map]
  rfl

/-- A byte that reaches memory keeps the value it replaces readable exactly while a command is pending (R78). -/
theorem State.otherValues_reachMemory (s : State) (a : Word) (b : Byte) :
    (s.reachMemory a b).otherValues a.toNat =
      (if s.engine.busy then [s.mem.read a.toNat] else []) ++ s.otherValues a.toNat := by
  rw [State.otherValues, State.heldAt_reachMemory_values, State.otherValues, ← List.append_assoc]
  congr 1
  simp only [State.reachMemory]
  cases s.engine.busy <;> simp

theorem State.heldAt_makeVisible_self (s : State) (a : Word) : (s.makeVisible a).heldAt a.toNat = [] := by
  simp only [State.heldAt, State.makeVisible, List.filter_filter, List.filter_eq_nil_iff]
  intro h _
  by_cases hk : h.addr = a.toNat <;> simp [hk]

theorem State.heldAt_makeVisible_of_ne (s : State) (a : Word) {x : Nat} (hx : x ≠ a.toNat) :
    (s.makeVisible a).heldAt x = s.heldAt x := by
  simp only [State.heldAt, State.makeVisible, List.filter_filter]
  apply List.filter_congr
  intro h _
  by_cases hk : h.addr = x <;> simp [hk, hx]

/-- What the held stores to a byte settle to: the byte in memory, or the newest of them. -/
theorem State.settledByte_cases (s : State) (a d : Nat) :
    (s.heldAt a = [] ∧ s.settledByte a d = s.mem.read a) ∨
    ∃ h rest, s.heldAt a = h :: rest ∧
      (s.settledByte a d = h.value ∨ (h.overtaken = true ∧ s.settledByte a d = s.mem.read a)) := by
  unfold State.settledByte
  cases hh : s.heldAt a with
  | nil => exact .inl ⟨rfl, rfl⟩
  | cons h rest =>
    refine .inr ⟨h, rest, rfl, ?_⟩
    cases ho : h.overtaken with
    | false => exact .inl (by simp [ho])
    | true =>
      cases Config.freeIndex d with
      | zero => exact .inl (by simp [ho])
      | succ n => exact .inr ⟨rfl, by simp [ho]⟩

/-- Every store keeps the canonical form. -/
theorem State.storeByte_wf {s : State} (g : Agent) (a : Word) (b : Byte) (h : s.mem.wf = true) :
    (s.storeByte g a b).mem.wf = true := by
  cases hg : s.holdsStore g with
  | true => rw [State.storeByte_holds a b hg]; exact h
  | false => rw [State.storeByte_completes a b hg]; exact Memory.write_wf b h a.isLt

/-- Making a store visible keeps the canonical form. -/
theorem State.makeVisible_wf {s : State} (a : Word) (h : s.mem.wf = true) : (s.makeVisible a).mem.wf = true :=
  Memory.write_wf _ h a.isLt

/-! ### A run of reads -/

@[simp] theorem State.readRun_zero (s : State) (a d : Nat) : s.readRun a d 0 = ([], false) := rfl

theorem State.readRun_succ (s : State) (a d n : Nat) : s.readRun a d (n + 1) =
    match s.memRead a d with
    | none => ([], true)
    | some b => (b :: (s.readRun (a + 1) (d + 1) n).1, (s.readRun (a + 1) (d + 1) n).2) := rfl

theorem State.readRun_congr {s t : State} (hm : t.mem = s.mem) (hr : t.racing = s.racing)
    (hu : t.held = s.held) (hp : t.platform = s.platform) (a d n : Nat) :
    t.readRun a d n = s.readRun a d n := by
  induction n generalizing a d with
  | zero => rfl
  | succ n ih => simp [State.readRun_succ, State.memRead_congr hm hr hu hp, ih]

/-- A run without BusError reads every byte. -/
theorem State.readRun_length {s : State} {a d n : Nat} (h : (s.readRun a d n).2 = false) :
    (s.readRun a d n).1.length = n := by
  induction n generalizing a d with
  | zero => rfl
  | succ n ih =>
    rw [State.readRun_succ] at h ⊢
    cases hb : s.memRead a d with
    | none => simp [hb] at h
    | some b => simp only [hb] at h; simp [ih h]

/-- Over ordinary memory every read succeeds, and byte `i` is read with draw `d + i`. -/
theorem State.readRun_of_memory (s : State) (a d n : Nat)
    (h : ∀ i, i < n → s.platform.kindAt (a + i) = .memory) :
    s.readRun a d n = ((List.range n).map fun i => s.byteAt (a + i) (d + i), false) := by
  induction n generalizing a d with
  | zero => rfl
  | succ n ih =>
    have h0 : s.memRead a d = some (s.byteAt a d) := by
      have := h 0 (by omega)
      rw [Nat.add_zero] at this
      simp [State.memRead, this]
    have := ih (a + 1) (d + 1) fun i hi => by rw [Nat.add_assoc, Nat.add_comm 1]; exact h (i + 1) (by omega)
    rw [State.readRun_succ, h0, this, List.range_succ_eq_map]
    simp [Function.comp_def, Nat.add_comm, Nat.add_left_comm]

/-- A run ends at its first BusError. -/
theorem State.readRun_of_busError (s : State) (a d k m : Nat)
    (h : ∀ i, i < k → s.platform.kindAt (a + i) = .memory) (hk : s.platform.kindAt (a + k) = .busError) :
    s.readRun a d (k + 1 + m) = ((List.range k).map fun i => s.byteAt (a + i) (d + i), true) := by
  induction k generalizing a d with
  | zero =>
    rw [Nat.add_zero] at hk
    rw [show 0 + 1 + m = m + 1 by omega, State.readRun_succ]
    simp [State.memRead, hk]
  | succ k ih =>
    have h0 : s.memRead a d = some (s.byteAt a d) := by
      have := h 0 (by omega)
      rw [Nat.add_zero] at this
      simp [State.memRead, this]
    have := ih (a + 1) (d + 1)
      (fun i hi => by rw [Nat.add_assoc, Nat.add_comm 1]; exact h (i + 1) (by omega))
      (by rw [Nat.add_assoc, Nat.add_comm 1]; exact hk)
    rw [show k + 1 + 1 + m = (k + 1 + m) + 1 by omega, State.readRun_succ, h0, this, List.range_succ_eq_map]
    simp [Function.comp_def, Nat.add_comm, Nat.add_left_comm]

/-- A run of reads is its first read followed by the rest. -/
theorem State.readRun_one_then {s : State} {a d n : Nat} {b : Byte} (h : s.memRead a d = some b) :
    s.readRun a d (n + 1) = (b :: (s.readRun (a + 1) (d + 1) n).1, (s.readRun (a + 1) (d + 1) n).2) := by
  rw [State.readRun_succ, h]

end Sys2Proof.Machine
end

