-- ==== Sys2Proof/Laws/Padder.lean ====
section
/-! SUPPORT. The padder: its loop in closed form, and the lengths of its parts (spec 41_padder.md R130 to R132). -/

namespace Sys2Proof.Machine

@[simp] theorem be64_length (x : Nat) : (be64 x).length = 8 := by simp [be64]

/-- The number of zero bytes that the loop of R130 appends to a message of `n` bytes and its marker. -/
def fillCount (n : Nat) : Nat := (119 - n % 64) % 64

/-- The loop appends zero bytes up to the first length that is 56 modulo 64. -/
theorem zeroFill_eq (fuel : Nat) (p : List Byte) (h : (120 - p.length % 64) % 64 ≤ fuel) :
    zeroFill fuel p = p ++ List.replicate ((120 - p.length % 64) % 64) 0x00 := by
  induction fuel generalizing p with
  | zero => simp [zeroFill, Nat.le_zero.mp h]
  | succ fuel ih =>
    unfold zeroFill
    split_ifs with h448
    · have hl : (p ++ [(0x00 : Byte)]).length = p.length + 1 := by simp
      rw [ih _ (by rw [hl]; omega), hl, List.append_assoc]
      rw [show (120 - p.length % 64) % 64 = (120 - (p.length + 1) % 64) % 64 + 1 by omega, List.replicate_succ]
      rfl
    · rw [show (120 - p.length % 64) % 64 = 0 by omega]
      simp

/-- The padding in closed form. -/
theorem pad_eq (m : List Byte) :
    pad m = m ++ [0x80] ++ List.replicate (fillCount m.length) 0x00 ++ be64 (8 * m.length) := by
  have hl : (m ++ [(0x80 : Byte)]).length = m.length + 1 := by simp
  unfold pad
  rw [zeroFill_eq _ _ (by omega), hl]
  rw [show (120 - (m.length + 1) % 64) % 64 = fillCount m.length by unfold fillCount; omega]

theorem pad_length (m : List Byte) : (pad m).length = 64 * blockCount m.length := by
  rw [pad_eq]
  simp only [List.length_append, List.length_replicate, List.length_singleton, be64_length, fillCount, blockCount]
  omega

theorem pad_blocks (m : List Byte) : (pad m).length / 64 = blockCount m.length := by
  rw [pad_length]; omega

theorem blockCount_pos (n : Nat) : 0 < blockCount n := by unfold blockCount; omega

/-- Byte `i` of the padding of a message is byte `i` of the message, for `i` inside the message. -/
theorem pad_getD_of_lt {m : List Byte} {i : Nat} (h : i < m.length) (d : Byte) :
    (pad m).getD i d = m.getD i d := by
  rw [pad_eq]
  simp only [List.append_assoc, List.getD_eq_getElem?_getD]
  rw [List.getElem?_append_left h]

/-- A block that lies inside the message is the same block of every longer message that begins with it. -/
theorem blockWords_pad_append {m : List Byte} (x : List Byte) {k : Nat} (h : 64 * (k + 1) ≤ m.length) :
    blockWords (pad (m ++ x)) k = blockWords (pad m) k := by
  have at_ : ∀ i, i < 64 * (k + 1) → (pad (m ++ x)).getD i 0 = (pad m).getD i 0 := by
    intro i hi
    rw [pad_getD_of_lt (by simp; omega), pad_getD_of_lt (by omega)]
    simp only [List.getD_eq_getElem?_getD]
    rw [List.getElem?_append_left (by omega)]
  unfold blockWords
  congr 1
  funext i
  have := i.isLt
  simp only []
  rw [at_ _ (by omega), at_ _ (by omega), at_ _ (by omega), at_ _ (by omega)]

end Sys2Proof.Machine
end

