-- ==== Sys2Proof/Laws/Hash.lean ====
section
/-! SUPPORT. HASH's block loop: where it stands after `k` blocks, and that running what is left of it ends where running
all of it does (spec 44_driver.md R192, R194; 10_state.md R36). -/

namespace Sys2Proof.Machine

@[simp] theorem chainTo_zero (p : List Byte) : chainTo p 0 = iv := rfl

theorem chainTo_succ (p : List Byte) (k : Nat) : chainTo p (k + 1) = cf (chainTo p k) (blockWords p k) := by
  unfold chainTo
  rw [List.range_succ, List.foldl_append, List.foldl_cons, List.foldl_nil]

/-- The chaining value after `k` blocks depends on those blocks only. -/
theorem chainTo_congr {p q : List Byte} {k : Nat} (h : ∀ i, i < k → blockWords p i = blockWords q i) :
    chainTo p k = chainTo q k := by
  induction k with
  | zero => rw [chainTo_zero, chainTo_zero]
  | succ k ih =>
    rw [chainTo_succ, chainTo_succ, ih fun i hi => h i (by omega), h k (by omega)]

/-- The registers after the first `k` blocks of a padded message, for `0 < k` (R195). -/
def Engine.atBlock (e : Engine) (p : List Byte) (k : Nat) : Engine :=
  { e with
    blk := blockWords p (k - 1)
    w := expandWords (blockWords p (k - 1))
    wp := primeWords (expandWords (blockWords p (k - 1)))
    r := roundsTo 64 (chainTo p (k - 1)) (expandWords (blockWords p (k - 1)))
      (primeWords (expandWords (blockWords p (k - 1))))
    j := 64
    v := chainTo p k }

/-- What compressing a block does, for an engine whose V is given. -/
theorem Engine.compressBlock_eq (e : Engine) : e.compressBlock =
    { e with
      w := expandWords e.blk
      wp := primeWords (expandWords e.blk)
      r := roundsTo 64 e.v (expandWords e.blk) (primeWords (expandWords e.blk))
      j := 64
      v := cf e.v e.blk } := by
  simp only [Engine.compressBlock, Engine.foldRound, Engine.runRounds, Engine.expandBlock, cf]

/-- One turn of the block loop from a state whose V is the chaining value of the blocks before it. -/
theorem Engine.hashBlock_eq (e : Engine) (k : Nat) (h : 0 < k → e.v = chainTo (pad e.progress.bytes) k) :
    e.hashBlock k = e.atBlock (pad e.progress.bytes) (k + 1) := by
  unfold Engine.hashBlock
  rw [Engine.compressBlock_eq]
  rcases Nat.eq_zero_or_pos k with rfl | hk
  · simp only [if_true, Engine.seedV, Engine.atBlock, chainTo_succ, chainTo_zero, Nat.add_sub_cancel]
  · simp only [if_neg (Nat.pos_iff_ne_zero.mp hk), h hk, Engine.atBlock, chainTo_succ, Nat.add_sub_cancel]

theorem Engine.atBlock_progress (e : Engine) (p : List Byte) (k : Nat) :
    (e.atBlock p k).progress = e.progress := rfl

theorem Engine.atBlock_atBlock (e : Engine) (p : List Byte) (j k : Nat) :
    (e.atBlock p j).atBlock p k = e.atBlock p k := rfl

theorem Engine.atBlock_v (e : Engine) (p : List Byte) (k : Nat) : (e.atBlock p k).v = chainTo p k := rfl

/-- After `k` blocks V is the chaining value before the last of them, folded with R (R195). -/
theorem Engine.atBlock_v_getElem (e : Engine) (p : List Byte) {k i : Nat} (hk : 0 < k) (hi : i < 8) :
    (e.atBlock p k).v[i] = (chainTo p (k - 1))[i] ^^^ (e.atBlock p k).r[i] := by
  obtain ⟨n, rfl⟩ : ∃ n, k = n + 1 := ⟨k - 1, by omega⟩
  simp only [Engine.atBlock, Nat.add_sub_cancel, chainTo_succ, cf_eq, xorWords_getElem]

/-- Turns `k`, `k + 1`, .. of the block loop, from the state after the first `k` blocks. -/
theorem Engine.foldl_hashBlock (e : Engine) (k n : Nat)
    (h : 0 < k → e = e.atBlock (pad e.progress.bytes) k) (hn : 0 < k + n) :
    (List.range' k n).foldl Engine.hashBlock e = e.atBlock (pad e.progress.bytes) (k + n) := by
  induction n generalizing e k with
  | zero => simpa using h (by omega)
  | succ n ih =>
    rw [List.range'_succ, List.foldl_cons]
    have h1 : e.hashBlock k = e.atBlock (pad e.progress.bytes) (k + 1) :=
      e.hashBlock_eq k fun hk => (congrArg Engine.v (h hk)).trans (Engine.atBlock_v e _ k)
    rw [h1, ih (e.atBlock (pad e.progress.bytes) (k + 1)) (k + 1) ?_ (by omega)]
    · rw [Engine.atBlock_progress, Engine.atBlock_atBlock, show k + 1 + n = k + (n + 1) by omega]
    · intro _
      rw [Engine.atBlock_progress, Engine.atBlock_atBlock]

/-- Running the blocks that are left ends in the state after all blocks (R192, R195). -/
theorem Engine.hashRest_eq (e : Engine)
    (h : 0 < e.progress.block → e = e.atBlock (pad e.progress.bytes) e.progress.block)
    (hb : e.progress.block ≤ blockCount e.progress.bytes.length) :
    e.hashRest = e.atBlock (pad e.progress.bytes) (blockCount e.progress.bytes.length) := by
  have hp := blockCount_pos e.progress.bytes.length
  unfold Engine.hashRest
  rw [pad_blocks, Engine.foldl_hashBlock e _ _ h (by omega)]
  rw [Nat.add_sub_cancel' hb]

/-- hash(m) is the chaining value after all blocks. -/
theorem hashWords_eq (m : List Byte) : hashWords m = chainTo (pad m) (blockCount m.length) := by
  rw [hashWords, pad_blocks]

/-! ### Reading the message -/

@[simp] theorem State.afterReads_progress (s : State) (x : List Byte × Bool) :
    (s.afterReads x).engine.progress =
      { s.engine.progress with bytes := s.engine.progress.bytes ++ x.1 } := rfl

/-- Reading nothing changes nothing. -/
theorem State.afterReads_nil (s : State) : s.afterReads ([], false) = s := by
  simp [State.afterReads]

/-- Reading `x` and then `y` is reading `x ++ y`. -/
theorem State.afterReads_afterReads (s : State) (x y : List Byte) (b : Bool) :
    (s.afterReads (x, false)).afterReads (y, b) = s.afterReads (x ++ y, b) := by
  simp only [State.afterReads, Engine.nextAddr, List.length_append, Bool.false_eq_true, if_false, Nat.add_zero,
    List.append_assoc, Nat.add_assoc, List.range_add, List.map_append, List.map_map]
  rfl

/-! ### A HASH that has made progress -/

/-- Blocks that lie inside the bytes read so far are the blocks of every message that begins with them. -/
theorem chainTo_pad_append (m x : List Byte) {k : Nat} (h : 64 * k ≤ m.length) :
    chainTo (pad (m ++ x)) k = chainTo (pad m) k :=
  chainTo_congr fun i hi => blockWords_pad_append x (by omega)

theorem Engine.atBlock_pad_append (e : Engine) (m x : List Byte) {k : Nat} (h : 64 * k ≤ m.length) (hk : 0 < k) :
    e.atBlock (pad (m ++ x)) k = e.atBlock (pad m) k := by
  simp only [Engine.atBlock]
  rw [chainTo_pad_append m x h, chainTo_pad_append m x (k := k - 1) (by omega), blockWords_pad_append x (by omega)]

/-- Consistent progress past the first block says that the registers are those after its blocks. -/
theorem Engine.ProgressConsistent.atBlock {e : Engine} (h : e.ProgressConsistent) (hk : 0 < e.progress.block) :
    e = e.atBlock (pad e.progress.bytes) e.progress.block := by
  obtain ⟨hb, hw, hwp, hr, hj, hv⟩ := h.2.2 hk
  simp only [Engine.atBlock]
  rw [← hb, ← hw, ← hwp, ← hr, ← hj, ← hv]

/-- Consistent progress, read to the end of the message: the blocks that are left end where all blocks do. -/
theorem Engine.ProgressConsistent.hashRest_append {e : Engine} (h : e.ProgressConsistent) (x : List Byte)
    (hx : e.progress.bytes.length + x.length = e.msgLen.toNat) :
    ({ e with progress := { e.progress with bytes := e.progress.bytes ++ x } } : Engine).hashRest =
      ({ e with progress := { e.progress with bytes := e.progress.bytes ++ x } } : Engine).atBlock
        (pad (e.progress.bytes ++ x)) (blockCount e.msgLen.toNat) := by
  have := Engine.hashRest_eq ({ e with progress := { e.progress with bytes := e.progress.bytes ++ x } } : Engine) ?_ ?_
  · simpa [hx] using this
  · intro hk
    have self := h.atBlock hk
    have h64 : 64 * e.progress.block ≤ e.progress.bytes.length ∨ x = [] := by
      rcases h.2.1 with h | ⟨h, -⟩
      · exact .inl h
      · exact .inr (List.eq_nil_of_length_eq_zero (by omega))
    rcases h64 with h64 | rfl
    · simp only
      rw [Engine.atBlock_pad_append _ _ _ h64 hk]
      conv_lhs => rw [self]
      rfl
    · simp only [List.append_nil]
      exact self
  · simp only [List.length_append, hx]
    rcases h.2.1 with hb | ⟨-, hb⟩
    · have := h.1
      unfold blockCount
      omega
    · exact hb

/-- Compressing a ready block keeps the progress consistent. -/
theorem Engine.ProgressConsistent.next_block {e : Engine} (h : e.ProgressConsistent) (hr : e.blockReady = true) :
    ({ e.hashBlock e.progress.block with
      progress := { e.progress with block := e.progress.block + 1 } } : Engine).ProgressConsistent := by
  rw [Engine.hashBlock_eq e _ fun hk => (h.2.2 hk).2.2.2.2.2]
  simp only [Engine.blockReady, Bool.and_eq_true, decide_eq_true_eq, Bool.or_eq_true] at hr
  refine ⟨h.1, ?_, fun _ => ⟨rfl, rfl, rfl, rfl, rfl, rfl⟩⟩
  rcases hr.2 with hl | hl
  · exact .inl hl
  · exact .inr ⟨hl, hr.1⟩

/-- Reading more of the message keeps the progress consistent. -/
theorem Engine.ProgressConsistent.more_bytes {e : Engine} (h : e.ProgressConsistent) (x : List Byte)
    (hx : e.progress.bytes.length + x.length ≤ e.msgLen.toNat) :
    ({ e with progress := { e.progress with bytes := e.progress.bytes ++ x } } : Engine).ProgressConsistent := by
  have h64 : 64 * e.progress.block ≤ e.progress.bytes.length ∨ x = [] := by
    rcases h.2.1 with h | ⟨h, -⟩
    · exact .inl h
    · exact .inr (List.eq_nil_of_length_eq_zero (by omega))
  rcases h64 with h64 | rfl
  · refine ⟨by simpa using hx, .inl (by simp only [List.length_append]; omega), fun hk => ?_⟩
    obtain ⟨hb, hw, hwp, hr, hj, hv⟩ := h.2.2 hk
    have hk' : 0 < e.progress.block := hk
    refine ⟨?_, hw, hwp, ?_, hj, ?_⟩
    · show e.blk = blockWords (pad (e.progress.bytes ++ x)) (e.progress.block - 1)
      rw [blockWords_pad_append x (by omega)]
      exact hb
    · show e.r = roundsTo 64 (chainTo (pad (e.progress.bytes ++ x)) (e.progress.block - 1)) e.w e.wp
      rw [chainTo_pad_append _ x (by omega)]
      exact hr
    · show e.v = chainTo (pad (e.progress.bytes ++ x)) e.progress.block
      rw [chainTo_pad_append _ x h64]
      exact hv
  · simpa using h

/-! ### HASH as a whole -/

theorem State.touchesDevice_eq_false {s : State}
    (h : ∀ i, i < s.engine.msgLen.toNat → s.platform.kindAt (s.engine.msgAddr.toNat + i) ≠ .device) :
    s.touchesDevice = false := by
  simp only [State.touchesDevice, List.any_eq_false, List.mem_range, beq_iff_eq]
  exact h

theorem Engine.rangeOk_iff (e : Engine) : e.rangeOk = true ↔ e.msgAddr.toNat + e.msgLen.toNat ≤ 2 ^ 32 := by
  simp [Engine.rangeOk]

/-- HASH past its checks: it depends on the reads that are left alone. -/
theorem execHash_of_checks {s : State} (hr : s.engine.rangeOk = true) (hd : s.touchesDevice = false) :
    execHash s =
      let got := s.readMessage (s.engine.msgLen.toNat - s.engine.progress.bytes.length)
      let read := s.afterReads got
      if got.2 then .next read.failBusError else .next (read.completeWith read.engine.hashRest) := by
  simp only [execHash, hr, hd, Bool.not_true, Bool.false_eq_true, if_false]

end Sys2Proof.Machine
end

