-- ==== Sys2Proof/Laws/Commands.lean ====
section
/-! SUPPORT. What a command can do: one inversion lemma for `exec` (spec 60_exceptions.md R228 to R230). -/

namespace Sys2Proof.Machine

@[simp] theorem exec_init (s : State) : exec .init s = execInit s := rfl
@[simp] theorem exec_compress (s : State) : exec .compress s = execCompress s := rfl
@[simp] theorem exec_hash (s : State) : exec .hash s = execHash s := rfl
@[simp] theorem exec_expand (s : State) : exec .expand s = execExpand s := rfl
@[simp] theorem exec_loadr (s : State) : exec .loadr s = execLoadr s := rfl
@[simp] theorem exec_round (s : State) : exec .round s = execRound s := rfl
@[simp] theorem exec_fold (s : State) : exec .fold s = execFold s := rfl

/-- Two engines agree on every register that no command's own effect writes (R94). -/
structure Engine.SameControl (e f : Engine) : Prop where
  msgAddr : e.msgAddr = f.msgAddr
  msgLen : e.msgLen = f.msgLen
  done : e.done = f.done
  err : e.err = f.err
  ovr : e.ovr = f.ovr
  errCode : e.errCode = f.errCode
  doneIE : e.doneIE = f.doneIE
  errIE : e.errIE = f.errIE
  pending : e.pending = f.pending

theorem Engine.SameControl.trans {e f g : Engine} (h : e.SameControl f) (k : f.SameControl g) : e.SameControl g :=
  ⟨h.1.trans k.1, h.2.trans k.2, h.3.trans k.3, h.4.trans k.4, h.5.trans k.5, h.6.trans k.6, h.7.trans k.7,
    h.8.trans k.8, h.9.trans k.9⟩

/-- What the effect of a command may do to an engine: only data registers change, J stays as it is or ends in 0..64,
and W and WP stay as they are or end related as in R41. -/
structure Engine.Effect (e f : Engine) : Prop where
  control : e.SameControl f
  round : e.j = f.j ∨ e.j.toNat ≤ 64
  prime : (e.w = f.w ∧ e.wp = f.wp) ∨ e.wp = primeWords e.w

theorem Engine.Effect.refl (e : Engine) : e.Effect e :=
  ⟨⟨rfl, rfl, rfl, rfl, rfl, rfl, rfl, rfl, rfl⟩, .inl rfl, .inl ⟨rfl, rfl⟩⟩

theorem Engine.Effect.trans {e f g : Engine} (h : e.Effect f) (k : f.Effect g) : e.Effect g := by
  refine ⟨h.control.trans k.control, ?_, ?_⟩
  · rcases h.round with hj | hj
    · rw [hj]; exact k.round
    · exact .inr hj
  · rcases h.prime with ⟨hw, hp⟩ | hp
    · rw [hw, hp]; exact k.prime
    · exact .inr hp

theorem Engine.compressBlock_effect (e : Engine) : e.compressBlock.Effect e := by
  rw [Engine.compressBlock_eq]
  exact ⟨⟨rfl, rfl, rfl, rfl, rfl, rfl, rfl, rfl, rfl⟩, .inr (show (64 : BitVec 7).toNat ≤ 64 by decide), .inr rfl⟩

theorem Engine.hashBlock_effect (e : Engine) (k : Nat) : (e.hashBlock k).Effect e := by
  unfold Engine.hashBlock
  refine (Engine.compressBlock_effect _).trans ?_
  split <;> exact ⟨⟨rfl, rfl, rfl, rfl, rfl, rfl, rfl, rfl, rfl⟩, .inl rfl, .inl ⟨rfl, rfl⟩⟩

theorem Engine.hashRest_effect (e : Engine) : e.hashRest.Effect e := by
  have run : ∀ (l : List Nat) (f : Engine), (l.foldl Engine.hashBlock f).Effect f := by
    intro l
    induction l with
    | nil => exact Engine.Effect.refl
    | cons k l ih => exact fun f => (ih (f.hashBlock k)).trans (f.hashBlock_effect k)
  exact run _ e

/-- What a command can do when it answers a next state: it completes, with reads made before only by HASH; it ends with
a precise error; or, HASH alone, it ends with BUS_ERROR after its reads. -/
theorem exec_next_cases {i : Instr} {s t : State} (h : exec i s = .next t) :
    (∃ g : List Byte × Bool, ∃ e : Engine, t = (s.afterReads g).completeWith e ∧
      e.Effect (s.afterReads g).engine ∧ (i ≠ .hash → g = ([], false))) ∨
    (∃ c, t = s.failWith c ∧ (c = .roundRange ∨ c = .sequence ∨ c = .addrRange)) ∨
    (∃ g : List Byte × Bool, i = .hash ∧ t = (s.afterReads g).failBusError) := by
  have plain : ∀ e : Engine, e.Effect s.engine → (.next (s.completeWith e) : Host.Outcome State Fault Refusal) = .next t →
      ∃ g : List Byte × Bool, ∃ e : Engine, t = (s.afterReads g).completeWith e ∧
        e.Effect (s.afterReads g).engine ∧ (i ≠ .hash → g = ([], false)) := by
    intro e he ht
    cases ht
    exact ⟨([], false), e, by rw [State.afterReads_nil], by rw [State.afterReads_nil]; exact he, fun _ => rfl⟩
  cases i with
  | init =>
    exact .inl (plain s.engine.seedV ⟨⟨rfl, rfl, rfl, rfl, rfl, rfl, rfl, rfl, rfl⟩, .inl rfl, .inl ⟨rfl, rfl⟩⟩ h)
  | compress => exact .inl (plain s.engine.compressBlock s.engine.compressBlock_effect h)
  | expand =>
    have he : s.engine.expandBlock.Effect s.engine := by
      unfold Engine.expandBlock
      exact ⟨⟨rfl, rfl, rfl, rfl, rfl, rfl, rfl, rfl, rfl⟩, .inl rfl, .inr rfl⟩
    exact .inl (plain s.engine.expandBlock he h)
  | loadr =>
    exact .inl (plain s.engine.loadRound ⟨⟨rfl, rfl, rfl, rfl, rfl, rfl, rfl, rfl, rfl⟩, .inr (show (0 : BitVec 7).toNat ≤ 64 by decide),
      .inl ⟨rfl, rfl⟩⟩ h)
  | round =>
    simp only [exec_round, execRound] at h
    split_ifs at h with hj
    · refine .inl (plain s.engine.stepRound ⟨⟨rfl, rfl, rfl, rfl, rfl, rfl, rfl, rfl, rfl⟩, .inr ?_, .inl ⟨rfl, rfl⟩⟩ h)
      rw [Engine.stepRound_j, BitVec.toNat_add]
      exact (Nat.mod_le _ _).trans (by simpa using hj)
    · cases h
      exact .inr (.inl ⟨_, rfl, .inl rfl⟩)
  | fold =>
    simp only [exec_fold, execFold] at h
    split_ifs at h
    · exact .inl (plain s.engine.foldRound ⟨⟨rfl, rfl, rfl, rfl, rfl, rfl, rfl, rfl, rfl⟩, .inl rfl,
        .inl ⟨rfl, rfl⟩⟩ h)
    · cases h
      exact .inr (.inl ⟨_, rfl, .inr (.inl rfl)⟩)
  | hash =>
    simp only [exec_hash, execHash] at h
    split_ifs at h
    · cases h
      exact .inr (.inl ⟨_, rfl, .inr (.inr rfl)⟩)
    · cases h
      exact .inr (.inr ⟨_, rfl, rfl⟩)
    · cases h
      exact .inl ⟨_, _, rfl, Engine.hashRest_effect _, fun hn => absurd rfl hn⟩

/-- A command never faults; only a HASH whose region holds a device is refused (R72). -/
theorem exec_stops {i : Instr} {s : State} :
    (∀ f, exec i s ≠ .fault f) ∧
    (∀ q, exec i s = .refused q → i = .hash ∧ s.touchesDevice = true ∧ q = .sideEffectRegion) := by
  constructor
  · intro f h
    cases i <;> simp only [exec, execInit, execCompress, execExpand, execLoadr, execRound, execFold, execHash] at h
    all_goals (repeat' split at h) <;> cases h
  · intro q h
    cases i <;> simp only [exec, execInit, execCompress, execExpand, execLoadr, execRound, execFold, execHash] at h
    all_goals (repeat' split at h) <;> cases h
    exact ⟨rfl, ‹_›, rfl⟩

end Sys2Proof.Machine
end

