-- ==== Sys2Proof/Laws/Encoding.lean ====
section
/-! SUPPORT. The decoder and the encoder (spec 30_encoding.md R90 to R93). -/

namespace Sys2Proof

@[simp] theorem encode_init : encode .init = 0x00000001 := rfl
@[simp] theorem encode_compress : encode .compress = 0x00000002 := rfl
@[simp] theorem encode_hash : encode .hash = 0x00000003 := rfl
@[simp] theorem encode_expand : encode .expand = 0x00000004 := rfl
@[simp] theorem encode_loadr : encode .loadr = 0x00000005 := rfl
@[simp] theorem encode_round : encode .round = 0x00000006 := rfl
@[simp] theorem encode_fold : encode .fold = 0x00000007 := rfl

/-- A word is its RSVD field above its CMD field. -/
theorem toNat_eq_reserved_command (c : Word) :
    c.toNat = (c.extractLsb' 4 28).toNat * 16 + (c.extractLsb' 0 4).toNat := by
  simp only [BitVec.extractLsb'_toNat]
  have := c.isLt
  omega

/-- CMD of a word with RSVD = 0 is the word's value. -/
theorem command_of_reserved_zero {c : Word} (h : c.extractLsb' 4 28 = 0) :
    (c.extractLsb' 0 4).toNat = c.toNat := by
  have := toNat_eq_reserved_command c
  rw [h] at this
  simpa using this.symm

/-- The opcode map is the encoder read backwards. -/
theorem commandOf_eq_some {n : Nat} {i : Instr} : commandOf n = some i ↔ n = (encode i).toNat := by
  constructor
  · intro h
    unfold commandOf at h
    split at h <;> cases h <;> rfl
  · rintro rfl
    cases i <;> rfl

/-- Any word that decodes is well formed. -/
theorem wellFormedWord_of_decode {c : Word} {i : Instr} (h : decode c = .ok i) : wellFormedWord c = true := by
  unfold decode at h
  split at h
  · cases h
  · rename_i hr
    cases hc : commandOf (c.extractLsb' 0 4).toNat with
    | none => rw [hc] at h; cases h
    | some k =>
      have : (c.extractLsb' 0 4).toNat = (encode k).toNat := commandOf_eq_some.mp hc
      simp only [ne_eq, not_not] at hr
      simp only [wellFormedWord, reservedZero, commandAssigned, hr, this]
      cases k <;> rfl

/-- A well-formed word decodes. -/
theorem decode_of_wellFormedWord {c : Word} (h : wellFormedWord c = true) : ∃ i, decode c = .ok i := by
  simp only [wellFormedWord, reservedZero, commandAssigned, Bool.and_eq_true, beq_iff_eq, decide_eq_true_eq] at h
  obtain ⟨hr, h1, h7⟩ := h
  unfold decode
  rw [if_neg (by simpa using hr)]
  generalize (c.extractLsb' 0 4).toNat = n at h1 h7
  interval_cases n <;> exact ⟨_, rfl⟩

end Sys2Proof
end

