-- ==== Sys2Proof/Laws/HostPort.lean ====
section
/-! SUPPORT. The register slave port: the bits of STATUS and INTEN (spec 10_state.md R30, R32), and one equation for
each kind of access (20_memory.md R61 to R66). -/

namespace Sys2Proof.Machine

/-- Every bit of STATUS (R30). -/
theorem Engine.statusWith_getLsbD (e : Engine) (j : BitVec 7) (i : Nat) : (e.statusWith j).getLsbD i =
    if i = 0 then e.busy else if i = 1 then e.done else if i = 2 then e.err else if i = 3 then e.ovr
    else if i < 8 then e.errCode.getLsbD (i - 4) else if i < 15 then j.getLsbD (i - 8) else false := by
  have bits : ∀ (c : BitVec 4) (o r d b : Bool),
      ((0 : BitVec 17) ++ j ++ c ++ BitVec.ofBool o ++ BitVec.ofBool r ++ BitVec.ofBool d
        ++ BitVec.ofBool b : BitVec (17 + 7 + 4 + 1 + 1 + 1 + 1)).getLsbD i =
      if i = 0 then b else if i = 1 then d else if i = 2 then r else if i = 3 then o
      else if i < 8 then c.getLsbD (i - 4) else if i < 15 then j.getLsbD (i - 8) else false := by
    intro c o r d b
    simp only [BitVec.getLsbD_append, BitVec.getLsbD_ofBool]
    rcases i with _ | _ | _ | _ | i
    · simp
    · simp
    · simp
    · simp
    · have e8 : i + 4 < 8 ↔ i < 4 := by omega
      have e15 : i + 4 < 15 ↔ i < 11 := by omega
      have e7 : i - 4 < 7 ↔ i < 11 := by omega
      by_cases h : i < 4 <;> by_cases k : i < 11 <;> simp [e8, e15, e7, h, k]
  exact bits _ _ _ _ _

/-- The fields of STATUS, each where R30 puts it. -/
theorem Engine.statusWith_fields (e : Engine) (j : BitVec 7) :
    (e.statusWith j)[0] = e.busy ∧ (e.statusWith j)[1] = e.done ∧ (e.statusWith j)[2] = e.err ∧
      (e.statusWith j)[3] = e.ovr ∧ (e.statusWith j).extractLsb' 4 4 = e.errCode ∧
      (e.statusWith j).extractLsb' 8 7 = j ∧ (e.statusWith j).extractLsb' 15 17 = 0 := by
  refine ⟨?_, ?_, ?_, ?_, ?_, ?_, ?_⟩
  · simp [← BitVec.getLsbD_eq_getElem, Engine.statusWith_getLsbD]
  · simp [← BitVec.getLsbD_eq_getElem, Engine.statusWith_getLsbD]
  · simp [← BitVec.getLsbD_eq_getElem, Engine.statusWith_getLsbD]
  · simp [← BitVec.getLsbD_eq_getElem, Engine.statusWith_getLsbD]
  · apply BitVec.eq_of_getLsbD_eq
    intro i hi
    rw [BitVec.getLsbD_extractLsb', Engine.statusWith_getLsbD, if_neg (by omega), if_neg (by omega),
      if_neg (by omega), if_neg (by omega), if_pos (by omega), Nat.add_sub_cancel_left]
    simp [hi]
  · apply BitVec.eq_of_getLsbD_eq
    intro i hi
    rw [BitVec.getLsbD_extractLsb', Engine.statusWith_getLsbD, if_neg (by omega), if_neg (by omega),
      if_neg (by omega), if_neg (by omega), if_neg (by omega), if_pos (by omega), Nat.add_sub_cancel_left]
    simp [hi]
  · apply BitVec.eq_of_getLsbD_eq
    intro i hi
    rw [BitVec.getLsbD_extractLsb', Engine.statusWith_getLsbD, if_neg (by omega), if_neg (by omega),
      if_neg (by omega), if_neg (by omega), if_neg (by omega), if_neg (by omega)]
    simp

/-- Every bit of INTEN (R32). -/
theorem Engine.intenWord_getLsbD (e : Engine) (i : Nat) :
    e.intenWord.getLsbD i = if i = 0 then e.doneIE else if i = 1 then e.errIE else false := by
  have bits : ∀ d r : Bool, ((0 : BitVec 30) ++ BitVec.ofBool r ++ BitVec.ofBool d : BitVec (30 + 1 + 1)).getLsbD i =
      if i = 0 then d else if i = 1 then r else false := by
    intro d r
    simp only [BitVec.getLsbD_append, BitVec.getLsbD_ofBool]
    rcases i with _ | _ | i <;> simp
  exact bits _ _

/-- INTEN reads back the two low bits written to it (R32). -/
theorem Engine.intenWord_writeInten (e : Engine) (v : Word) : (e.writeInten v).intenWord = v &&& 0x00000003 := by
  apply BitVec.eq_of_getLsbD_eq
  intro i hi
  have three : (0x00000003 : Word).getLsbD i = decide (i < 2) := by
    revert i
    decide
  rw [BitVec.getLsbD_and, three, Engine.intenWord_getLsbD]
  rcases i with _ | _ | i
  · simp [Engine.writeInten]
  · simp [Engine.writeInten]
  · simp

/-- A legal host read (R64). -/
theorem State.hostRead_legal {s : State} {off : Offset} (hr : s.resetAsserted = false) (ho : off.toNat % 4 = 0) :
    s.hostRead 32 off = .next (s.readReg off) := by
  simp [State.hostRead, hr, accessLegal, ho]

/-- A legal host write (R65, R66). -/
theorem State.hostWrite_legal {s : State} {off : Offset} (v : Word) (hr : s.resetAsserted = false)
    (ho : off.toNat % 4 = 0) : s.hostWrite 32 off v = .next (s.writeReg (Reg.ofOffset off) v) := by
  simp [State.hostWrite, hr, accessLegal, ho]

/-- A dropped write (R66). -/
theorem State.writeReg_busy {s : State} {r : Reg} (v : Word) (hb : s.engine.busy = true) (hp : r.isProtected = true) :
    s.writeReg r v = { s with engine := { s.engine with ovr := true } } := by
  simp [State.writeReg, hb, hp]

/-- A CTRL write while idle (R65). -/
theorem State.writeReg_ctrl {s : State} (v : Word) (hb : s.engine.busy = false) : s.writeReg .ctrl v = s.submit v := by
  simp [State.writeReg, hb]

/-- A write that sets a register: while idle, or while busy to a register R66 does not protect. -/
theorem State.writeReg_set {s : State} {r : Reg} (v : Word) (h : s.engine.busy = true → r.isProtected = false)
    (hc : r ≠ .ctrl) : s.writeReg r v = { s with engine := s.engine.setReg r v } := by
  unfold State.writeReg
  rw [if_neg, if_neg hc]
  simpa using h

/-- What a host write can do to the engine (R65, R66). -/
theorem State.writeReg_cases (s : State) (r : Reg) (v : Word) :
    (s.engine.busy = true ∧ r.isProtected = true ∧ s.writeReg r v = { s with engine := { s.engine with ovr := true } }) ∨
    (s.engine.busy = false ∧ r = .ctrl ∧ s.writeReg r v = s.submit v) ∨
    ((s.engine.busy = true → r.isProtected = false) ∧ r ≠ .ctrl ∧
      s.writeReg r v = { s with engine := s.engine.setReg r v }) := by
  by_cases hc : r = .ctrl
  · subst hc
    cases hb : s.engine.busy
    · exact .inr (.inl ⟨rfl, rfl, State.writeReg_ctrl v hb⟩)
    · exact .inl ⟨rfl, rfl, State.writeReg_busy v hb rfl⟩
  · by_cases h : s.engine.busy = true ∧ r.isProtected = true
    · exact .inl ⟨h.1, h.2, State.writeReg_busy v h.1 h.2⟩
    · have h' : s.engine.busy = true → r.isProtected = false := by simpa using h
      exact .inr (.inr ⟨h', hc, State.writeReg_set v h' hc⟩)

/-- A word written to CTRL while idle starts its command or is reported (R222, R223). -/
theorem State.submit_cases (s : State) (c : Word) :
    (∃ i, decode c = .ok i ∧ s.submit c = s.startCommand c) ∨
    (∃ d, decode c = .error d ∧ s.submit c = { s with engine := s.engine.illegalCommand }) := by
  unfold State.submit
  cases h : decode c with
  | ok i => exact .inl ⟨i, rfl, rfl⟩
  | error d => exact .inr ⟨d, rfl, rfl⟩

end Sys2Proof.Machine
end

