-- ==== Sys2Proof/Laws/PerInstr.lean ====
section
/-! SUPPORT. The statements made per command, one lemma for each (LAWS.json). -/

namespace Sys2Proof.Laws.RoundTrip

/-- The command is well formed, its word is, RSVD of the word is zero, CMD of the word is the command's number, and the
word decodes to the command (spec 30_encoding.md R90 to R92). -/
def Statement (i : Instr) : Prop :=
  i.wellFormed = true ∧ wellFormedWord (encode i) = true ∧ (encode i).extractLsb' 4 28 = 0 ∧
    (encode i).extractLsb' 0 4 = opcode i ∧ decode (encode i) = .ok i

theorem init : Statement .init := ⟨rfl, rfl, rfl, rfl, rfl⟩
theorem compress : Statement .compress := ⟨rfl, rfl, rfl, rfl, rfl⟩
theorem hash : Statement .hash := ⟨rfl, rfl, rfl, rfl, rfl⟩
theorem expand : Statement .expand := ⟨rfl, rfl, rfl, rfl, rfl⟩
theorem loadr : Statement .loadr := ⟨rfl, rfl, rfl, rfl, rfl⟩
theorem round : Statement .round := ⟨rfl, rfl, rfl, rfl, rfl⟩
theorem fold : Statement .fold := ⟨rfl, rfl, rfl, rfl, rfl⟩

end Sys2Proof.Laws.RoundTrip
end

