-- ==== Sys2Proof/Laws/Step.lean ====
section
/-! SUPPORT. What a step can do: inversion lemmas for the engine's turns, and the form of a step (spec
70_reset_and_hazards.md R262; log 2). -/

namespace Sys2Proof.Machine

theorem step_of_no_input {s : State} (h : s.inputs = []) : step s = s.finishCommand := by
  simp only [step, h]

theorem step_of_input {s : State} {x : Input} {rest : List Input} (h : s.inputs = x :: rest) :
    step s = State.perform { s with inputs := rest } x := by
  simp only [step, h]

/-- The engine's turn does nothing, or runs the pending command. -/
theorem State.finishCommand_cases {s t : State} (h : s.finishCommand = .next t) :
    t = s ∨ ∃ c i, s.resetAsserted = false ∧ s.engine.pending = some c ∧ decode c = .ok i ∧ exec i s = .next t := by
  unfold State.finishCommand at h
  split at h
  · cases h
    exact .inl rfl
  · rename_i hr
    split at h
    · cases h
      exact .inl rfl
    · rename_i c hc
      split at h
      · rename_i i hi
        exact .inr ⟨c, i, by simpa using hr, hc, hi, h⟩
      · cases h

/-- Reading one byte of a HASH does nothing, reads it, or ends the HASH with BUS_ERROR. -/
theorem State.advanceRead_cases {s t : State} (h : s.advanceRead = .next t) :
    t = s ∨
    (s.hashRunning = true ∧ s.touchesDevice = false ∧ s.engine.progress.bytes.length < s.engine.msgLen.toNat ∧
      ((∃ b, s.memRead s.engine.nextAddr s.draws = some b ∧ t = s.afterReads ([b], false)) ∨
        (s.memRead s.engine.nextAddr s.draws = none ∧ t = (s.afterReads ([], true)).failBusError))) := by
  unfold State.advanceRead at h
  split_ifs at h with hr hd hl
  · cases h
    exact .inl rfl
  · have run : s.readMessage 1 = match s.memRead s.engine.nextAddr s.draws with
        | none => ([], true)
        | some b => ([b], false) := rfl
    refine .inr ⟨by simpa using hr, by simpa using hd, hl, ?_⟩
    cases hm : s.memRead s.engine.nextAddr s.draws with
    | none =>
      simp only [run, hm, if_true] at h
      cases h
      exact .inr ⟨rfl, rfl⟩
    | some b =>
      simp only [run, hm, Bool.false_eq_true, if_false] at h
      cases h
      exact .inl ⟨b, rfl, rfl⟩
  · cases h
    exact .inl rfl

/-- Compressing one block of a HASH does nothing, or compresses the block whose bytes are read. -/
theorem State.advanceCompress_cases (s : State) :
    s.advanceCompress = s ∨
    (s.hashRunning = true ∧ s.engine.blockReady = true ∧ s.advanceCompress = { s with
      engine := { s.engine.hashBlock s.engine.progress.block with
        progress := { s.engine.progress with block := s.engine.progress.block + 1 } } }) := by
  unfold State.advanceCompress
  split_ifs with h
  · rw [Bool.and_eq_true] at h
    exact .inr ⟨h.1, h.2, rfl⟩
  · exact .inl rfl

/-- A HASH that is running is the pending command, outside reset and in range. -/
theorem State.hashRunning_iff (s : State) : s.hashRunning = true ↔
    s.resetAsserted = false ∧ s.engine.pending = some (encode .hash) ∧ s.engine.rangeOk = true := by
  simp [State.hashRunning, and_assoc]

end Sys2Proof.Machine
end

