-- ==== Sys2Proof/Tests/Slice0.lean ====
section
/-! SUPPORT. Tests and witnesses. Expected values are the derived vectors of spec 95_test_vectors.md (section named at
each test) or the numbers of the rules; none is this model's own answer. -/

namespace Sys2Proof.Machine

/-! ### Building small states -/

/-- The outcome is a next state with the property. -/
def nextWith (o : Host.Outcome State Fault Refusal) (p : State → Bool) : Bool :=
  match o with
  | .next t => p t
  | .fault _ => false
  | .refused _ => false

/-- The outcome is this refusal. -/
def refusedWith (o : Host.Outcome State Fault Refusal) (q : Refusal) : Bool :=
  match o with
  | .next _ => false
  | .fault _ => false
  | .refused r => r = q

/-- The state after reset with another engine. -/
def withEngine (e : Engine) : State := { State.reset with engine := e }

/-- The state in which a command has just been started on an engine (R222). -/
def running (i : Instr) (e : Engine) : State := withEngine (e.startCommand (encode i))

/-- The padded "abc" as one block (95 section 2.2). -/
def abcBlock : Vector Word 16 := #v[0x61626380, 0, 0, 0, 0, 0, 0, 0, 0, 0, 0, 0, 0, 0, 0, 0x00000018]

/-- The engine after reset with a message of `n` bytes at `a`. -/
def messageAt (a n : Word) : Engine := { Engine.reset with msgAddr := a, msgLen := n }

/-- The engine after reset, with J set. -/
def atRound (j : BitVec 7) : Engine := { Engine.reset with j := j }

/-- A platform with one region. -/
def withRegion (k : RegionKind) (base size : Nat) (s : State) : State :=
  { s with platform := { s.platform with map := [⟨base, size, k⟩] } }

/-- The state after reset on a platform that is not coherent. -/
def notCoherent : State := { State.reset with platform := { coherent := false, map := [] } }

/-! ### Well-formedness and decoding -/

theorem test_reserved_bit_refused : reservedZero 0x00000013 = false ∧ wellFormedWord 0x00000013 = false := by decide
theorem test_command_zero_refused : commandAssigned 0x00000000 = false ∧ wellFormedWord 0x00000000 = false := by decide
theorem test_command_eight_refused : commandAssigned 0x00000008 = false ∧ wellFormedWord 0x00000008 = false := by decide
theorem test_command_fifteen_refused : commandAssigned 0x0000000F = false ∧ wellFormedWord 0x0000000F = false := by
  decide

theorem test_decode_init : (decode 0b00000000000000000000000000000001#32).toOption = some .init := by decide
theorem test_decode_compress : (decode 0b00000000000000000000000000000010#32).toOption = some .compress := by decide
theorem test_decode_hash : (decode 0b00000000000000000000000000000011#32).toOption = some .hash := by decide
theorem test_decode_expand : (decode 0b00000000000000000000000000000100#32).toOption = some .expand := by decide
theorem test_decode_loadr : (decode 0b00000000000000000000000000000101#32).toOption = some .loadr := by decide
theorem test_decode_round : (decode 0b00000000000000000000000000000110#32).toOption = some .round := by decide
theorem test_decode_fold : (decode 0b00000000000000000000000000000111#32).toOption = some .fold := by decide
theorem test_decode_refuses : (decode 0x00000000).toOption = none ∧ (decode 0x00000008).toOption = none ∧
    (decode 0x00000013).toOption = none ∧ (decode 0x80000001).toOption = none := by decide

theorem test_table_words : decodeTableWord 32 1 = some .init ∧ decodeTableWord 32 7 = some .fold ∧
    decodeTableWord 32 8 = none ∧ decodeTableWord 32 0x13 = none := by decide

/-- A step on each prepared word runs that command: it leaves its STATUS (95 section 2.7). -/
theorem test_fetched_word_runs : nextWith (step (State.reset.withFetchWord 32 5)) (fun t => t.engine.statusWord = 0x00000002) ∧
    nextWith (step (State.reset.withFetchWord 32 6)) (fun t => t.engine.statusWord = 0x00004024) ∧
    nextWith (step (State.reset.withFetchWord 32 8)) (fun t => t.engine.statusWord = 0x00004014) := by decide

/-! ### The commands, one step each -/

/-- 95 section 2.6: INIT from V = 0. -/
theorem test_init : nextWith (exec .init (running .init { Engine.reset with v := Vector.replicate 8 0 })) fun t =>
    t.engine.v = #v[0x7380166F, 0x4914B2B9, 0x172442D7, 0xDA8A0600, 0xA96F30BC, 0x163138AA, 0xE38DEE4D, 0xB0FB0E4E] ∧
      t.engine.done = true := by decide

/-- 95 section 2.5, and the last row of the trace of section 2.4. -/
theorem test_compress : nextWith (exec .compress (running .compress { Engine.reset with blk := abcBlock })) fun t =>
    t.engine.v = #v[0x66C7F0F4, 0x62EEEDD9, 0xD1F2D46B, 0xDC10E4E2, 0x4167C487, 0x5CF2F7A2, 0x297DA02B, 0x8F4BA8E0] ∧
      t.engine.r = #v[0x1547E69B, 0x2BFA5F60, 0xC6D696BC, 0x069AE2E2, 0xE808F43B, 0x4AC3CF08, 0xCAF04E66, 0x3FB0A6AE] ∧
      t.engine.blk = abcBlock ∧ t.engine.statusWord = 0x00004002 := by decide +kernel

/-- 95 section 2.7: one byte 0x61 at the top of the message space; one read, at 0xFFFFFFFF. -/
theorem test_hash_top_of_memory :
    nextWith (exec .hash { running .hash (messageAt 0xFFFFFFFF 1) with mem := [(0xFFFFFFFF, 0x61)] }) fun t =>
      t.engine.v = #v[0x623476AC, 0x18F65A29, 0x09E43C7F, 0xEC61B49C, 0x7E764A91, 0xA18CCB82, 0xF1917A29, 0xC86C5E88] ∧
        t.portReads = [0xFFFFFFFF] ∧ t.engine.statusWord = 0x00004002 := by decide +kernel

/-- 95 section 2.7: a BusError at 0x2003; reads 0x2000 to 0x2003 only. -/
theorem test_hash_bus_error :
    nextWith (exec .hash (withRegion .busError 0x2003 1 (running .hash (messageAt 0x2000 8)))) fun t =>
      t.portReads = [0x2000, 0x2001, 0x2002, 0x2003] ∧ t.engine.err = true ∧ t.engine.errCode = 0x5 ∧
        t.engine.done = false ∧ t.engine.ovr = false ∧ t.engine.busy = false := by decide +kernel

/-- 95 section 2.3. -/
theorem test_expand : nextWith (exec .expand (running .expand { Engine.reset with blk := abcBlock })) fun t =>
    t.engine.w[16] = 0x9092E200 ∧ t.engine.w[31] = 0xB2D12F1B ∧ t.engine.w[67] = 0xB99C0545 ∧
      t.engine.wp[15] = 0x719C70F5 ∧ t.engine.wp[63] = 0x49E260D5 ∧ t.engine.j = 64 := by decide +kernel

/-- 95 section 2.4, row LOADR, and section 2.7. -/
theorem test_loadr : nextWith (exec .loadr (running .loadr Engine.reset)) fun t =>
    t.engine.r = #v[0x7380166F, 0x4914B2B9, 0x172442D7, 0xDA8A0600, 0xA96F30BC, 0x163138AA, 0xE38DEE4D, 0xB0FB0E4E] ∧
      t.engine.statusWord = 0x00000002 := by decide

/-- 95 section 2.4, row 16 from row 15: FF and GG change there; W[16] and WP[16] are those of section 2.3. -/
theorem test_round_sixteen :
    nextWith (exec .round (running .round { atRound 16 with
      r := #v[0x34D1691E, 0x7C529778, 0x92B57849, 0x979AB113, 0x61F99646, 0x3EE95933, 0x2AA0D251, 0xDB131B86]
      w := Vector.replicate 68 0x9092E200
      wp := Vector.replicate 64 0x9092E200 })) fun t =>
      t.engine.r =
        #v[0x796AFAB1, 0x34D1691E, 0xA52EF0F8, 0x92B57849, 0x067550F5, 0x61F99646, 0xC999F74A, 0x2AA0D251] ∧
        t.engine.j = 17 := by decide +kernel

/-- 95 section 2.4, row 0 from row LOADR. -/
theorem test_round_zero :
    nextWith (exec .round (running .round { atRound 0 with
      r := iv
      w := Vector.replicate 68 0x61626380
      wp := Vector.replicate 64 0x61626380 })) fun t =>
      t.engine.r =
        #v[0xB9EDC12B, 0x7380166F, 0x29657292, 0x172442D7, 0xB2AD29F4, 0xA96F30BC, 0xC550B189, 0xE38DEE4D] ∧
        t.engine.statusWord = 0x00000102 := by decide +kernel

/-- 95 section 2.4: V and row 63, folded into the digest of "abc". -/
theorem test_fold :
    nextWith (exec .fold (running .fold { atRound 64 with
      r := #v[0x1547E69B, 0x2BFA5F60, 0xC6D696BC, 0x069AE2E2, 0xE808F43B, 0x4AC3CF08, 0xCAF04E66, 0x3FB0A6AE] })) fun t =>
      t.engine.v =
        #v[0x66C7F0F4, 0x62EEEDD9, 0xD1F2D46B, 0xDC10E4E2, 0x4167C487, 0x5CF2F7A2, 0x297DA02B, 0x8F4BA8E0] := by
  decide

/-- 95 section 2.7: FOLD with J = 0. -/
theorem test_fold_sequence : nextWith (exec .fold (running .fold (atRound 0))) fun t =>
    t.engine.statusWord = 0x00000034 ∧ t.engine.v = iv := by decide

/-! ### The host port -/

/-- 95 section 2.7: register reads from reset. -/
theorem test_reads_after_reset : State.reset.readValue .ctrl = 0 ∧ State.reset.readValue .ident = 0x534D3301 ∧
    State.reset.readValue .reserved = 0 ∧ State.reset.readValue .status = 0x00004000 ∧
    State.reset.readValue (.v 0) = 0x7380166F ∧ State.reset.readValue (.w 67) = 0 := by decide

/-- 95 section 2.7: a write of STATUS clears ERR with ERRCODE; clearing DONE alone keeps them. -/
theorem test_status_write :
    let e : Engine := { Engine.reset with err := true, errCode := 0x2 }
    e.statusWord = 0x00004024 ∧ (e.clearStatus 0x00000004).statusWord = 0x00004000 ∧
      (e.clearStatus 0x00000002).statusWord = 0x00004024 := by decide

/-- 10_state.md R35: the register at some offsets of the map. -/
theorem test_offsets : Reg.ofOffset 0x010 = .msgLen ∧ Reg.ofOffset 0x05C = .blk 7 ∧ Reg.ofOffset 0x20C = .w 67 ∧
    Reg.ofOffset 0x210 = .reserved ∧ Reg.ofOffset 0x3FC = .wp 63 := by decide

/-- Both orders of P4 (95 section 3): the V0 write lands while busy, or after the command. -/
theorem test_busy_write_race :
    nextWith ((running .init Engine.reset).hostWrite 32 0x020 0x12345678) (fun t =>
      t.engine.ovr = true ∧ t.engine.v = iv) ∧
    nextWith (State.reset.hostWrite 32 0x020 0x12345678) (fun t => t.engine.ovr = false ∧ t.engine.v[0] = 0x12345678) := by
  decide

/-- R76: host 1 over 0, not made visible, then another agent's 2: the byte reads 2 or 1, and no longer 0. -/
theorem test_later_store_over_held_store :
    let s := (notCoherent.storeByte .host 0x1000 0x01).storeByte .other 0x1000 0x02
    s.mem.read 0x1000 = 0x02 ∧ s.otherValues 0x1000 = [0x01] := by decide

/-- R76: host 1 and then host 2, made visible: the byte reads 2. -/
theorem test_made_visible :
    let s := ((notCoherent.storeByte .host 0x1000 0x01).storeByte .host 0x1000 0x02).makeVisible 0x1000
    s.mem.read 0x1000 = 0x02 ∧ s.otherValues 0x1000 = [] := by decide

/-- 95 section 2.1. -/
theorem test_word_arithmetic : rotl 0x12345678 31 = 0x091A2B3C ∧ rotl 0x12345678 32 = 0x12345678 ∧
    rotl 0x00000001 31 = 0x80000000 ∧ be32 0x61 0x62 0x63 0x80 = 0x61626380 ∧
    bytes32 0x1AB21D83 = [0x1A, 0xB2, 0x1D, 0x83] ∧ be64 24 = [0, 0, 0, 0, 0, 0, 0, 0x18] ∧
    be64 (8 * (2 ^ 32 - 1)) = [0, 0, 0, 7, 0xFF, 0xFF, 0xFF, 0xF8] := by decide

/-- 95 section 2.2: pad("abc") as a block. -/
theorem test_pad_abc : blockWords (pad [0x61, 0x62, 0x63]) 0 = abcBlock := by decide +kernel

/-! ### Witnesses: for each statement of Certificates/Slice0/Obligations.lean that has hypotheses, concrete values
that meet all of them, at the ends of each clause's range -/

/-- A pending HASH of 64 bytes that has read none. -/
def hashing : State := running .hash (messageAt 0x1000 64)

/-- A pending HASH of 64 bytes that has read them all. -/
def hashingRead : State :=
  { hashing with engine := { hashing.engine with progress := { block := 0, bytes := List.replicate 64 0x00 } } }

theorem witness_DecodeAcceptsExactlySevenWords :
    (1 ≤ (0x00000001 : Word).toNat ∧ (0x00000007 : Word).toNat ≤ 7) ∧ State.reset.Idle ∧
      (∀ i, (0x00000000 : Word) ≠ encode i) ∧ (∀ i, (0x00000008 : Word) ≠ encode i) ∧
      (∀ i, (0x80000001 : Word) ≠ encode i) ∧ hashing.engine.busy = true ∧ hashing.resetAsserted = false := by
  refine ⟨by decide, by decide, ?_, ?_, ?_, rfl, rfl⟩ <;> (intro i; cases i <;> decide)

theorem witness_DecodeOfEncode : ∀ i : Instr, i.wellFormed = true := fun i => by cases i <;> rfl

theorem witness_RotlIsCircular : 0 % 32 = 0 ∧ 32 % 32 = 0 ∧ 1 ≤ 1 % 32 ∧ 1 ≤ 31 % 32 ∧ 1 ≤ 33 % 32 ∧ 0 < 32 ∧ 31 < 32 := by
  decide

theorem witness_Be64IsBigEndian : 0 < 2 ^ 64 ∧ 2 ^ 64 - 1 < 2 ^ 64 ∧ 0 < 8 ∧ 7 < 8 := by decide

/-- A fill of 63 bytes has places 0 and 62; at n mod 64 = 55 the fill is empty. -/
theorem witness_PadProperties : 0 < (119 - 56 % 64) % 64 ∧ 62 < (119 - 56 % 64) % 64 ∧ (119 - 55 % 64) % 64 = 0 := by
  decide

theorem witness_ExpandSatisfiesRecurrence : 16 ≤ 16 ∧ 16 < 68 ∧ 16 ≤ 67 ∧ 67 < 68 := by decide

theorem witness_RoundFunctionsMatchFormulas : 0 < 16 ∧ 15 < 16 ∧ 16 ≤ 16 ∧ 16 ≤ 63 ∧ 63 ≤ 63 := by decide

theorem witness_ExpandFillsWAndWP : State.reset.engine.blk = Vector.replicate 16 0 ∧
    (running .expand { Engine.reset with blk := abcBlock }).engine.blk =
      #v[0x61626380, 0, 0, 0, 0, 0, 0, 0, 0, 0, 0, 0, 0, 0, 0, 0x00000018] := ⟨rfl, rfl⟩

theorem witness_RoundStepsThePipeline : (running .round (atRound 0)).engine.j.toNat < 64 ∧
    (running .round (atRound 63)).engine.j.toNat < 64 ∧ (running .round (atRound 64)).engine.j = 64 ∧
    (∃ s : State, ∃ b : Vector Word 16, b = #v[0x61626380, 0, 0, 0, 0, 0, 0, 0, 0, 0, 0, 0, 0, 0, 0, 0x00000018] ∧
      s.engine.w = expandWords b ∧ s.engine.wp = primeWords (expandWords b) ∧ s.engine.r = iv ∧ s.engine.j = 0) :=
  ⟨by decide, by decide, by decide,
    running .round { atRound 0 with r := iv, w := expandWords abcBlock, wp := primeWords (expandWords abcBlock) },
    abcBlock, rfl, rfl, rfl, rfl, rfl⟩

theorem witness_FoldXorsRIntoV : (running .fold (atRound 64)).engine.j = 64 ∧
    (running .fold (atRound 0)).engine.j ≠ 64 ∧ (running .fold (atRound 63)).engine.j ≠ 64 ∧
    (∃ s : State, ∃ b : Vector Word 16, b = #v[0x61626380, 0, 0, 0, 0, 0, 0, 0, 0, 0, 0, 0, 0, 0, 0, 0x00000018] ∧
      s.engine.r = roundsTo 64 iv (expandWords b) (primeWords (expandWords b)) ∧ s.engine.v = iv ∧ s.engine.j = 64) :=
  ⟨by decide, by decide, by decide,
    running .fold { atRound 64 with r := roundsTo 64 iv (expandWords abcBlock) (primeWords (expandWords abcBlock)) },
    abcBlock, rfl, rfl, rfl, rfl⟩

theorem witness_CompressAppliesCF :
    ((withEngine { Engine.reset with v := Vector.replicate 8 0 }).engine.blk = Vector.replicate 16 0 ∧
      (withEngine { Engine.reset with v := Vector.replicate 8 0 }).engine.v = Vector.replicate 8 0) ∧
    (State.reset.engine.blk = Vector.replicate 16 0 ∧ State.reset.engine.v = iv) ∧
    ((withEngine { Engine.reset with blk := abcBlock }).engine.blk =
      #v[0x61626380, 0, 0, 0, 0, 0, 0, 0, 0, 0, 0, 0, 0, 0, 0, 0x00000018] ∧
      (withEngine { Engine.reset with blk := abcBlock }).engine.v = iv) := ⟨⟨rfl, rfl⟩, ⟨rfl, rfl⟩, ⟨rfl, rfl⟩⟩

theorem witness_StepSequenceEqualsCompress : State.reset.Idle := by decide

/-- The largest region that is in range, with a byte; and the empty message there. -/
theorem witness_HashComputesDigestOfMessage :
    let s := running .hash (messageAt 0xFFFFFFFF 1)
    let z := running .hash (messageAt 0xFFFFFFFF 0)
    (s.engine.progress = HashProgress.start ∧ s.engine.msgAddr.toNat + s.engine.msgLen.toNat ≤ 2 ^ 32 ∧
      ∀ i : Nat, i < s.engine.msgLen.toNat → s.platform.kindAt (s.engine.msgAddr.toNat + i) = .memory) ∧
    (z.engine.progress = HashProgress.start ∧ z.engine.msgAddr.toNat + z.engine.msgLen.toNat ≤ 2 ^ 32 ∧
      ∀ i : Nat, i < z.engine.msgLen.toNat → z.platform.kindAt (z.engine.msgAddr.toNat + i) = .memory) :=
  ⟨⟨rfl, by decide, fun _ _ => rfl⟩, ⟨rfl, by decide, fun _ _ => rfl⟩⟩

theorem hashing_inv : hashing.Inv where
  round := by decide
  status := by decide
  pending := ⟨by intro c h; cases h; decide, fun _ => rfl⟩
  progress := ⟨by decide, .inl (by decide), fun h => absurd h (by decide)⟩
  memory := by decide
  reset := fun h => by cases h

theorem hashingRead_inv : hashingRead.Inv where
  round := by decide
  status := by decide
  pending := ⟨by intro c h; cases h; decide, fun h => absurd rfl h⟩
  progress := ⟨by decide, .inl (by decide), fun h => absurd h (by decide)⟩
  memory := by decide
  reset := fun h => by cases h

theorem advanceRead_hashing : ∃ t, hashing.advanceRead = .next t ∧ t.engine.pending = some (encode .hash) := ⟨_, rfl, rfl⟩

theorem advanceCompress_pending : hashingRead.advanceCompress.engine.pending = some (encode .hash) := by decide +kernel

/-- A read in the first clause's form, a block in the second's. -/
theorem witness_HashProgressDecidesNothing :
    (∃ s t : State, s.Inv ∧ s.engine.pending = some (encode .hash) ∧ s.advanceRead = .next t ∧
      t.engine.pending = some (encode .hash)) ∧
    (∃ s t : State, s.Inv ∧ s.engine.pending = some (encode .hash) ∧ s.advanceCompress = t ∧
      t.engine.pending = some (encode .hash)) := by
  obtain ⟨t, h, hp⟩ := advanceRead_hashing
  exact ⟨⟨hashing, t, hashing_inv, rfl, h, hp⟩, ⟨hashingRead, _, hashingRead_inv, rfl, rfl, advanceCompress_pending⟩⟩

/-- One byte past the end. -/
theorem witness_HashAddrRange : 2 ^ 32 < (messageAt 0xFFFFFFFF 2).msgAddr.toNat + (messageAt 0xFFFFFFFF 2).msgLen.toNat := by
  decide

/-- A BusError at the first byte, and at the last. -/
theorem witness_HashBusError : ∀ k : Nat, k = 0 ∨ k = 7 →
    let s := withRegion .busError (0x2000 + k) 1 (running .hash (messageAt 0x2000 8))
    s.engine.progress = HashProgress.start ∧ s.engine.msgAddr.toNat + s.engine.msgLen.toNat ≤ 2 ^ 32 ∧
      k < s.engine.msgLen.toNat ∧
      (∀ i : Nat, i < k → s.platform.kindAt (s.engine.msgAddr.toNat + i) = .memory) ∧
      s.platform.kindAt (s.engine.msgAddr.toNat + k) = .busError ∧
      (∀ i : Nat, i < s.engine.msgLen.toNat → s.platform.kindAt (s.engine.msgAddr.toNat + i) ≠ .device) := by
  rintro k (rfl | rfl) <;> decide

/-- A device at the first byte, and at the last. -/
theorem witness_HashRefusesDeviceRegion : ∀ i : Nat, i = 0 ∨ i = 7 →
    let s := withRegion .device (0x2000 + i) 1 (running .hash (messageAt 0x2000 8))
    s.engine.msgAddr.toNat + s.engine.msgLen.toNat ≤ 2 ^ 32 ∧ i < s.engine.msgLen.toNat ∧
      s.platform.kindAt (s.engine.msgAddr.toNat + i) = .device ∧
      refusedWith (exec .hash s) .sideEffectRegion = true := by
  rintro i (rfl | rfl) <;> decide

/-- The same byte at two addresses. -/
theorem witness_HashDependsOnlyOnBytesRead :
    let s := running .hash (messageAt 0x1000 1)
    let s' := running .hash (messageAt 0xFFFFFFFF 1)
    s.engine.progress = HashProgress.start ∧ s'.engine.progress = HashProgress.start ∧
      s.engine.msgLen = s'.engine.msgLen ∧ s.engine.msgAddr.toNat + s.engine.msgLen.toNat ≤ 2 ^ 32 ∧
      s'.engine.msgAddr.toNat + s'.engine.msgLen.toNat ≤ 2 ^ 32 ∧
      (∀ i : Nat, i < s.engine.msgLen.toNat →
        s.platform.kindAt (s.engine.msgAddr.toNat + i) = .memory ∧
        s'.platform.kindAt (s'.engine.msgAddr.toNat + i) = .memory ∧
        s.byteAt (s.engine.msgAddr.toNat + i) (s.draws + i) =
          s'.byteAt (s'.engine.msgAddr.toNat + i) (s'.draws + i)) :=
  ⟨rfl, rfl, rfl, by decide, by decide, fun _ _ => ⟨rfl, rfl, rfl⟩⟩

/-- A pending command with its turn next as an input, and with no input left. -/
theorem witness_StepRunsDecodedCommand :
    (running .fold Engine.reset).engine.pending = some 0x00000007 ∧ decode 0x00000007 = .ok .fold ∧
      Instr.fold.wellFormed = true ∧ (running .fold Engine.reset).resetAsserted = false ∧
      (running .fold Engine.reset).inputs = [] ∧
      ({ running .fold Engine.reset with inputs := [.engineFinish] } : State).inputs = .engineFinish :: [] :=
  ⟨rfl, rfl, rfl, rfl, rfl, rfl⟩

theorem witness_CtrlWriteStartsCommand : ∀ i : Instr,
    let s : State := { State.reset with inputs := [.hostWrite 32 0x000 (encode i)] }
    s.Idle ∧ s.inputs = .hostWrite 32 0x000 (encode i) :: [] := fun _ => ⟨⟨rfl, rfl⟩, rfl⟩

/-- A command that completes and one that ends with an error. -/
theorem witness_CommandEndsWithOneOutcome :
    (running .loadr Engine.reset).engine.StatusConsistent ∧ (running .loadr Engine.reset).engine.busy = true ∧
      (∃ t, exec .loadr (running .loadr Engine.reset) = .next t ∧ t.engine.done = true) ∧
    (running .round Engine.reset).engine.StatusConsistent ∧ (running .round Engine.reset).engine.busy = true ∧
      (∃ t, exec .round (running .round Engine.reset) = .next t ∧ t.engine.err = true) :=
  ⟨by decide, rfl, ⟨_, rfl, rfl⟩, by decide, rfl, ⟨_, rfl, rfl⟩⟩

theorem witness_OnlyHashReadsMemory : Instr.init ≠ .hash ∧ ∃ t, exec .init State.reset = .next t := ⟨by decide, _, rfl⟩

/-- The ends of the register banks and of the reserved ranges. -/
theorem witness_RegisterMapRoundTrip :
    (Reg.v 0).offset = some 0x020 ∧ (Reg.v 7).offset = some 0x03C ∧ (Reg.blk 0).offset = some 0x040 ∧
      (Reg.blk 15).offset = some 0x07C ∧ (Reg.round 0).offset = some 0x080 ∧ (Reg.round 7).offset = some 0x09C ∧
      (Reg.w 0).offset = some 0x100 ∧ (Reg.w 67).offset = some 0x20C ∧ (Reg.wp 0).offset = some 0x300 ∧
      (Reg.wp 63).offset = some 0x3FC ∧
      (Reg.ofOffset 0x010 ≠ .reserved ∧ Reg.ofOffset 0x0FC ≠ .reserved) ∧
      Reg.ofOffset 0x014 = .reserved ∧ Reg.ofOffset 0x01C = .reserved ∧ Reg.ofOffset 0x0A0 = .reserved ∧
      Reg.ofOffset 0x0F8 = .reserved ∧ Reg.ofOffset 0x210 = .reserved ∧ Reg.ofOffset 0x2FC = .reserved := by decide

/-- The first and the last offset of the window; an idle and a busy engine. -/
theorem witness_HostReadReturns : State.reset.resetAsserted = false ∧ hashing.resetAsserted = false ∧
    (0x000 : Offset).toNat % 4 = 0 ∧ (0x3FC : Offset).toNat % 4 = 0 ∧ State.reset.engine.busy = false ∧
    hashing.engine.busy = true ∧ hashing.engine.StatusConsistent := by decide

theorem witness_HostWriteWhileIdle : State.reset.Idle ∧ (∀ i, (0x00000008 : Word) ≠ encode i) ∧ (0x004 : Offset).toNat % 4 = 0 ∧
    Reg.ofOffset 0x004 ≠ .ctrl ∧ (0x3FC : Offset).toNat % 4 = 0 ∧ Reg.ofOffset 0x3FC ≠ .ctrl := by
  refine ⟨by decide, ?_, by decide, by decide, by decide, by decide⟩
  intro i
  cases i <;> decide

theorem witness_HostWriteWhileBusy : hashing.engine.busy = true ∧ hashing.resetAsserted = false ∧
    (0x000 : Offset).toNat % 4 = 0 ∧ (0x3FC : Offset).toNat % 4 = 0 := by decide

/-- Words that agree in bits 3:1 and differ elsewhere. -/
theorem witness_StatusWriteOneClears : State.reset.resetAsserted = false ∧ hashing.resetAsserted = false ∧
    (0x0000000E : Word).extractLsb' 1 3 = (0xFFFFFFFF : Word).extractLsb' 1 3 := by decide

theorem witness_IntenReadsBackTwoBits : State.reset.resetAsserted = false ∧ hashing.resetAsserted = false := by decide

theorem witness_IllegalAccessChangesNothing : State.reset.resetAsserted = false ∧
    ((16 : Nat) ≠ 32 ∨ (0x000 : Offset).toNat % 4 ≠ 0) ∧ ((64 : Nat) ≠ 32 ∨ (0x000 : Offset).toNat % 4 ≠ 0) ∧
    ((32 : Nat) ≠ 32 ∨ (0x001 : Offset).toNat % 4 ≠ 0) ∧ ((32 : Nat) ≠ 32 ∨ (0x3FF : Offset).toNat % 4 ≠ 0) := by decide

/-- The written register itself, and another. -/
theorem witness_WrittenRegisterReadsBack : State.reset.Idle ∧ (Reg.v 7).offset = some 0x03C ∧
    (Reg.blk 0).offset = some 0x040 ∧ (Reg.v 7).isProtected = true ∧ Reg.v 7 ≠ .ctrl := by decide

theorem witness_IrqFollowsStatusAndInten : (0x00000006 : Word)[1] = true ∧ (0x00000006 : Word)[2] = true ∧
    (0xFFFFFFFC : Word)[0] = false ∧ (0xFFFFFFFC : Word)[1] = false := by decide

theorem witness_RegisterWindowIsOneKiBAtBase : windowOffset Config.base = some 0x000 ∧
    windowOffset (Config.base + 1023) = some 0x3FF := by
  constructor <;> simp [windowOffset]

theorem witness_ResetFromAnyState :
    ({ hashing with inputs := [.assertReset] } : State).inputs = .assertReset :: [] ∧
      (∃ s t : State, s.resetAsserted = true ∧ s.engine = State.reset.engine ∧ s.inputs = [.engineFinish] ∧
        step s = .next t) ∧
      ({ State.reset with inputs := [.releaseReset] } : State).inputs = .releaseReset :: [] :=
  ⟨rfl, ⟨{ State.reset with resetAsserted := true, inputs := [.engineFinish] }, _, rfl, rfl, rfl, rfl⟩, rfl⟩

theorem witness_StoreThenReadReturnsByte : Memory.wf [(0, 0x61), (0xFFFFFFFF, 0x62)] = true ∧
    State.reset.mem.wf = true ∧ State.reset.platform.coherent = true ∧ notCoherent.mem.wf = true ∧
    notCoherent.platform.coherent = false := by decide

/-- A byte with no other value, a busy engine, a value readable while busy, an idle engine, and a command that runs. -/
theorem witness_RacingByteReadsAValueItHeld : State.reset.otherValues 0 = [] ∧ hashing.mem.wf = true ∧
    hashing.engine.busy = true ∧ 0x00 ∈ hashing.mem.read 0 :: hashing.otherValues 0 ∧
    State.reset.engine.busy = false ∧ State.reset.platform.coherent = true ∧ ∃ t, exec .init State.reset = .next t :=
  ⟨rfl, rfl, rfl, by decide, rfl, rfl, _, rfl⟩

/-- Nothing held at a byte, a host store not overtaken, and one that is. -/
theorem witness_StoreNotYetVisibleReadsOldOrNew : notCoherent.platform.coherent = false ∧ notCoherent.mem.wf = true ∧
    notCoherent.engine.busy = false ∧ notCoherent.racing = [] ∧ notCoherent.heldAt 0 = [] ∧
    (∃ h rest, (notCoherent.storeByte .host 0 0x01).heldAt 0 = h :: rest ∧ h.overtaken = false) ∧
    (∃ h rest, ((notCoherent.storeByte .host 0 0x01).storeByte .other 0 0x02).heldAt 0 = h :: rest ∧
      h.overtaken = true) ∧ (0x00000001 : Word) ≠ 0x00000000 :=
  ⟨rfl, rfl, rfl, rfl, rfl, ⟨_, _, rfl, rfl⟩, ⟨_, _, rfl, rfl⟩, by decide⟩

/-- A store that completes, and a held host store that is made visible. -/
theorem witness_OnlyStoresChangeMemory :
    (∃ s t : State, s.mem.wf = true ∧ step s = .next t ∧ t.mem.read 0xFFFFFFFF ≠ s.mem.read 0xFFFFFFFF) ∧
    (∃ s t : State, s.mem.wf = true ∧ s.inputs = .makeVisible 0xFFFFFFFF :: [] ∧ step s = .next t ∧
      t.mem.read 0xFFFFFFFF ≠ s.mem.read 0xFFFFFFFF) :=
  ⟨⟨{ State.reset with inputs := [.store .host 0xFFFFFFFF 0x61] }, _, rfl, rfl, by decide⟩,
    ⟨{ notCoherent.storeByte .host 0xFFFFFFFF 0x61 with inputs := [.makeVisible 0xFFFFFFFF] }, _, rfl, rfl, rfl,
      by decide⟩⟩

/-- An idle platform with a held host store, and one with nothing held. -/
theorem witness_CompletedStoreHidesOlderValues :
    ((notCoherent.storeByte .host 0 0x01).mem.wf = true ∧ (notCoherent.storeByte .host 0 0x01).engine.busy = false ∧
      (notCoherent.storeByte .host 0 0x01).racing = [] ∧ (notCoherent.storeByte .host 0 0x01).heldAt 0 ≠ []) ∧
    State.reset.mem.wf = true ∧ State.reset.engine.busy = false ∧ State.reset.platform.coherent = true ∧
      State.reset.heldAt 0 = [] := by decide

/-- Inputs that change the engine: a write, the engine's turn, and reset. -/
theorem witness_EngineChangesOnlyByItsInputs :
    (∃ s t : State, s.inputs = .hostWrite 32 0x020 0 :: [] ∧ step s = .next t ∧ t.engine ≠ s.engine) ∧
    (∃ s t : State, s.inputs = .engineFinish :: [] ∧ step s = .next t ∧ t.engine ≠ s.engine) ∧
    (∃ s t : State, s.inputs = .assertReset :: [] ∧ step s = .next t ∧ t.engine ≠ s.engine) :=
  ⟨⟨{ State.reset with inputs := [.hostWrite 32 0x020 0] }, _, rfl, rfl, by decide⟩,
    ⟨{ running .init Engine.reset with inputs := [.engineFinish] }, _, rfl, rfl, by decide⟩,
    ⟨{ hashing with inputs := [.assertReset] }, _, rfl, rfl, by decide⟩⟩

theorem witness_MessageRegistersChangeOnlyByHost :
    (∃ s t : State, step s = .next t ∧ t.engine.msgAddr ≠ s.engine.msgAddr) ∧
    (∃ s t : State, step s = .next t ∧ t.engine.msgLen ≠ s.engine.msgLen) :=
  ⟨⟨{ State.reset with inputs := [.hostWrite 32 0x00C 1] }, _, rfl, by decide⟩,
    ⟨{ State.reset with inputs := [.hostWrite 32 0x010 1] }, _, rfl, by decide⟩⟩

theorem witness_StepKeepsInvariant : ∃ s t : State, s.Inv ∧ step s = .next t :=
  ⟨{ hashing with inputs := [.engineRead] },  _, ⟨hashing_inv.1, hashing_inv.2, hashing_inv.3, hashing_inv.4, hashing_inv.5,
    hashing_inv.6⟩, rfl⟩

theorem witness_StepKeepsPrimeRelation :
    let s := running .init Engine.reset
    (∀ j : Fin 64, s.engine.wp[j] = s.engine.w[j.val] ^^^ s.engine.w[j.val + 4]) ∧ ∃ t, step s = .next t :=
  ⟨by decide +kernel, _, rfl⟩

theorem withRegion_inv {k : RegionKind} {b n : Nat} {s : State} (h : s.Inv) : (withRegion k b n s).Inv :=
  ⟨h.1, h.2, h.3, h.4, h.5, h.6⟩

/-- A state from which the step is refused, for each of the two reasons. -/
theorem witness_StepNeverFaults :
    (withRegion .device 0x1000 1 hashing).Inv ∧
      ({ State.reset with resetAsserted := true, inputs := [.hostRead 32 0x004] } : State).Inv ∧
      refusedWith (step (withRegion .device 0x1000 1 hashing)) .sideEffectRegion = true ∧
      refusedWith (step { State.reset with resetAsserted := true, inputs := [.hostRead 32 0x004] }) .accessDuringReset =
        true :=
  ⟨withRegion_inv hashing_inv,
    ⟨by decide, by decide, ⟨fun c h => (by cases h), fun _ => rfl⟩,
      ⟨by decide, .inl (by decide), fun h => absurd h (by decide)⟩, rfl, fun _ => rfl⟩, by decide, by decide⟩

theorem witness_PendingCommandCompletes : hashing.Inv ∧ hashing.inputs = [] ∧ hashing.resetAsserted = false ∧
    (hashing.engine.pending = some (encode .hash) → hashing.touchesDevice = false) :=
  ⟨hashing_inv, rfl, rfl, fun _ => State.touchesDevice_eq_false fun _ _ => by
    show RegionKind.memory ≠ .device
    decide⟩

/-- An idle engine and a running one. -/
theorem witness_WaitEndsWithIdleEngine :
    (∃ s : State, s.Inv ∧ s.inputs = hostWait ++ [] ∧ s.resetAsserted = false ∧ s.engine.busy = false) ∧
    (∃ s : State, s.Inv ∧ s.inputs = hostWait ++ [] ∧ s.resetAsserted = false ∧ s.engine.busy = true ∧
      (s.engine.pending = some (encode .hash) → s.touchesDevice = false)) :=
  ⟨⟨{ State.reset with inputs := hostWait },
      ⟨by decide, by decide, ⟨fun c h => (by cases h), fun _ => rfl⟩,
        ⟨by decide, .inl (by decide), fun h => absurd h (by decide)⟩, rfl, fun _ => rfl⟩, rfl, rfl, rfl⟩,
    ⟨{ hashing with inputs := hostWait },
      ⟨hashing_inv.1, hashing_inv.2, hashing_inv.3, hashing_inv.4, hashing_inv.5, hashing_inv.6⟩, rfl, rfl, rfl,
      fun _ => State.touchesDevice_eq_false fun _ _ => by
        show RegionKind.memory ≠ .device
        decide⟩⟩

end Sys2Proof.Machine
end

section
/-! HASH's progress decides nothing: a byte read or a block compressed early leaves the outcome as it was, and the
settled O21 (spec 10_state.md R36; 44_driver.md R194). -/

namespace Sys2Proof.Machine

/-! ### A byte read early -/

/-- A HASH that reads its next byte early is left with the reads after it (R70). -/
theorem State.readMessage_succ {s : State} {b : Byte} (n : Nat) (h : s.memRead s.engine.nextAddr s.draws = some b) :
    s.readMessage (n + 1) =
      (b :: ((s.afterReads ([b], false)).readMessage n).1, ((s.afterReads ([b], false)).readMessage n).2) := by
  have rest : (s.afterReads ([b], false)).readMessage n = s.readRun (s.engine.nextAddr + 1) (s.draws + 1) n := by
    have addr : (s.afterReads ([b], false)).engine.nextAddr = s.engine.nextAddr + 1 := by
      simp [Engine.nextAddr, State.afterReads, Nat.add_assoc]
    rw [State.readMessage, addr]
    exact State.readRun_congr (s := s) (t := s.afterReads ([b], false)) rfl rfl rfl rfl _ _ n
  rw [rest]
  exact State.readRun_one_then h

/-- Reading the next byte early changes no outcome of HASH. -/
theorem execHash_afterReads_one {s : State} {b : Byte} (hr : s.engine.rangeOk = true)
    (hd : s.touchesDevice = false) (hl : s.engine.progress.bytes.length < s.engine.msgLen.toNat)
    (hb : s.memRead s.engine.nextAddr s.draws = some b) :
    execHash (s.afterReads ([b], false)) = execHash s := by
  obtain ⟨n, hn⟩ : ∃ n, s.engine.msgLen.toNat - s.engine.progress.bytes.length = n + 1 :=
    ⟨s.engine.msgLen.toNat - s.engine.progress.bytes.length - 1, by omega⟩
  have left : (s.afterReads ([b], false)).engine.msgLen.toNat
      - (s.afterReads ([b], false)).engine.progress.bytes.length = n := by
    show s.engine.msgLen.toNat - (s.engine.progress.bytes ++ [b]).length = n
    rw [List.length_append, List.length_singleton]
    omega
  have joined : ∀ got : List Byte × Bool,
      (s.afterReads ([b], false)).afterReads got = s.afterReads (b :: got.1, got.2) :=
    fun got => State.afterReads_afterReads s [b] got.1 got.2
  rw [execHash_of_checks (s := s.afterReads ([b], false)) hr hd, execHash_of_checks hr hd, left, hn,
    State.readMessage_succ n hb]
  simp only [joined]

/-! ### A block compressed early -/

/-- The state in which HASH has compressed its next block early (R36, R194). -/
def State.afterBlock (s : State) : State :=
  { s with
    engine := { s.engine.hashBlock s.engine.progress.block with
      progress := { s.engine.progress with block := s.engine.progress.block + 1 } } }

/-- HASH with consistent progress: it ends with BUS_ERROR at a read that is left, or after all blocks (R192, R194). -/
theorem execHash_of_consistent {s : State} (hr : s.engine.rangeOk = true) (hd : s.touchesDevice = false)
    (hc : s.engine.ProgressConsistent) :
    execHash s =
      let got := s.readMessage (s.engine.msgLen.toNat - s.engine.progress.bytes.length)
      if got.2 then .next (s.afterReads got).failBusError
      else .next ((s.afterReads got).completeWith
        (s.engine.atBlock (pad (s.engine.progress.bytes ++ got.1)) (blockCount s.engine.msgLen.toNat))) := by
  rw [execHash_of_checks hr hd]
  dsimp only
  split_ifs with he
  · rfl
  · have hlen : s.engine.progress.bytes.length
        + (s.readMessage (s.engine.msgLen.toNat - s.engine.progress.bytes.length)).1.length =
          s.engine.msgLen.toNat := by
      have read := State.readRun_length (Bool.eq_false_iff.mpr he)
      have bound := hc.1
      rw [State.readMessage, read]
      omega
    have rest : (s.afterReads (s.readMessage _)).engine.hashRest = _ := hc.hashRest_append _ hlen
    rw [rest]
    rfl

@[simp] theorem State.afterBlock_rangeOk (s : State) : s.afterBlock.engine.rangeOk = s.engine.rangeOk := by
  simp [State.afterBlock, Engine.rangeOk]

@[simp] theorem State.afterBlock_touchesDevice (s : State) : s.afterBlock.touchesDevice = s.touchesDevice := by
  simp [State.afterBlock, State.touchesDevice]

/-- A block compressed early leaves the reads that are left as they were. -/
theorem State.readMessage_afterBlock (s : State) (n : Nat) : s.afterBlock.readMessage n = s.readMessage n := by
  have addr : s.afterBlock.engine.nextAddr = s.engine.nextAddr := by simp [State.afterBlock, Engine.nextAddr]
  rw [State.readMessage, addr]
  exact State.readRun_congr (s := s) (t := s.afterBlock) rfl rfl rfl rfl _ _ n

/-- BUS_ERROR leaves nothing of a block compressed early (R230). -/
theorem State.failBusError_afterBlock (s : State) (got : List Byte × Bool) :
    (s.afterBlock.afterReads got).failBusError = (s.afterReads got).failBusError := by
  simp [State.failBusError, State.afterReads, State.afterBlock, Engine.nextAddr, Engine.raiseError, Engine.scramble]

/-- The registers after a number of blocks hold nothing of a block compressed early. -/
theorem State.completeWith_afterBlock (s : State) (got : List Byte × Bool) (p : List Byte) (k : Nat) :
    (s.afterBlock.afterReads got).completeWith (s.afterBlock.engine.atBlock p k) =
      (s.afterReads got).completeWith (s.engine.atBlock p k) := by
  simp [State.completeWith, State.afterReads, State.afterBlock, Engine.nextAddr, Engine.complete, Engine.atBlock]

/-- Compressing a ready block early changes no outcome of HASH. -/
theorem execHash_afterBlock {s : State} (hr : s.engine.rangeOk = true) (hd : s.touchesDevice = false)
    (hc : s.engine.ProgressConsistent) (hb : s.engine.blockReady = true) :
    execHash s.afterBlock = execHash s := by
  have hc' : s.afterBlock.engine.ProgressConsistent := hc.next_block hb
  have hlen : s.afterBlock.engine.msgLen = s.engine.msgLen := by simp [State.afterBlock]
  have hbytes : s.afterBlock.engine.progress.bytes = s.engine.progress.bytes := rfl
  rw [execHash_of_consistent (by simpa using hr) (by simpa using hd) hc', execHash_of_consistent hr hd hc]
  simp only [hlen, hbytes, State.readMessage_afterBlock, State.failBusError_afterBlock,
    State.completeWith_afterBlock]

/-- A refused HASH stays refused: in range, a device in the region stops it whatever its progress (R72). -/
theorem execHash_of_device {s : State} (hr : s.engine.rangeOk = true) (hd : s.touchesDevice = true) :
    execHash s = .refused .sideEffectRegion := by
  simp only [execHash, hr, hd, Bool.not_true, Bool.false_eq_true, if_false, if_true]

/-! ### Either -/

/-- Settles O21: a HASH that reads a byte or compresses a block early ends as it would have ended. -/
theorem hashProgressDecidesNothing : Obligations.HashProgressDecidesNothing := by
  unfold Obligations.HashProgressDecidesNothing
  intro s t hs _ ht hpending
  simp only [exec_hash]
  rcases ht with hread | hcompress
  · rcases State.advanceRead_cases hread with rfl | ⟨hrun, hd, hl, ⟨b, hb, rfl⟩ | ⟨-, rfl⟩⟩
    · rfl
    · obtain ⟨-, -, hr⟩ := s.hashRunning_iff.mp hrun
      exact execHash_afterReads_one hr hd hl hb
    · simp at hpending
  · subst hcompress
    rcases s.advanceCompress_cases with heq | ⟨hrun, hready, heq⟩
    · rw [heq]
    · obtain ⟨-, -, hr⟩ := s.hashRunning_iff.mp hrun
      rw [heq, ← State.afterBlock]
      cases hd : s.touchesDevice with
      | false => exact execHash_afterBlock hr hd hs.progress hready
      | true =>
        rw [execHash_of_device hr hd, execHash_of_device (by simpa using hr) (by simpa using hd)]

end Sys2Proof.Machine
end

section
/-! The register slave port: the register map, register writes and reads, and the settled O26, O31, O35, O36, O38, O39
and O42 (spec 10_state.md R30 to R35, R40; 20_memory.md R64, R65). -/

namespace Sys2Proof.Machine

/-! ### The register map (R34, R35) -/

/-- The register at the offset of a named register is that register; the offset is aligned. -/
theorem Reg.ofOffset_of_offset {r : Reg} {off : Offset} (h : r.offset = some off) :
    Reg.ofOffset off = r ∧ off.toNat % 4 = 0 := by
  cases r with
  | reserved => cases h
  | v i | blk i | round i | w i | wp i =>
    cases h
    decide +revert
  | _ =>
    cases h
    decide

/-- The offsets that R34 reserves, with those beside them that are not aligned. -/
def ReservedOffset (off : Offset) : Prop :=
  (0x014 ≤ off.toNat ∧ off.toNat ≤ 0x01C) ∨ (0x0A0 ≤ off.toNat ∧ off.toNat ≤ 0x0F8) ∨
    (0x210 ≤ off.toNat ∧ off.toNat ≤ 0x2FC)

theorem Reg.ofOffset_reserved {off : Offset} (h : ReservedOffset off) : Reg.ofOffset off = .reserved := by
  unfold ReservedOffset at h
  simp (disch := omega) only [Reg.ofOffset, if_neg, dif_neg]

/-- Every aligned offset is that of a named register, or reserved. -/
theorem Reg.named_or_reserved {off : Offset} (h4 : off.toNat % 4 = 0) :
    (∃ r : Reg, r.offset = some off) ∨ ReservedOffset off := by
  have hlt := off.isLt
  have bank : ∀ b n, b % 4 = 0 → b ≤ off.toNat → off.toNat < b + 4 * n →
      ∃ i : Fin n, some (BitVec.ofNat 10 (b + 4 * i.val)) = some off := by
    intro b n hb hl hu
    refine ⟨⟨(off.toNat - b) / 4, by omega⟩, congrArg some ?_⟩
    rw [show b + 4 * ((off.toNat - b) / 4) = off.toNat by omega, BitVec.ofNat_toNat, BitVec.setWidth_eq]
  by_cases hres : ReservedOffset off
  · exact .inr hres
  unfold ReservedOffset at hres
  refine .inl ?_
  by_cases h : off.toNat < 0x014
  · obtain ⟨i, hi⟩ := bank 0x000 5 rfl (by omega) (by omega)
    match i with
    | 0 => exact ⟨.ctrl, hi⟩
    | 1 => exact ⟨.status, hi⟩
    | 2 => exact ⟨.inten, hi⟩
    | 3 => exact ⟨.msgAddr, hi⟩
    | 4 => exact ⟨.msgLen, hi⟩
  by_cases h : off.toNat < 0x040
  · obtain ⟨i, hi⟩ := bank 0x020 8 rfl (by omega) (by omega)
    exact ⟨.v i, hi⟩
  by_cases h : off.toNat < 0x080
  · obtain ⟨i, hi⟩ := bank 0x040 16 rfl (by omega) (by omega)
    exact ⟨.blk i, hi⟩
  by_cases h : off.toNat < 0x0A0
  · obtain ⟨i, hi⟩ := bank 0x080 8 rfl (by omega) (by omega)
    exact ⟨.round i, hi⟩
  by_cases h : off.toNat < 0x100
  · obtain ⟨i, hi⟩ := bank 0x0FC 1 rfl (by omega) (by omega)
    match i with
    | 0 => exact ⟨.ident, hi⟩
  by_cases h : off.toNat < 0x210
  · obtain ⟨i, hi⟩ := bank 0x100 68 rfl (by omega) (by omega)
    exact ⟨.w i, hi⟩
  · obtain ⟨i, hi⟩ := bank 0x300 64 rfl (by omega) (by omega)
    exact ⟨.wp i, hi⟩

/-- An aligned offset that holds a named register is that register's offset. -/
theorem Reg.offset_ofOffset {off : Offset} (h4 : off.toNat % 4 = 0) (h : Reg.ofOffset off ≠ .reserved) :
    (Reg.ofOffset off).offset = some off := by
  rcases Reg.named_or_reserved h4 with ⟨r, hr⟩ | hres
  · rw [(Reg.ofOffset_of_offset hr).1, hr]
  · exact absurd (Reg.ofOffset_reserved hres) h

/-- A named register has one offset among the aligned ones. -/
theorem Reg.eq_of_ofOffset {r : Reg} {off off' : Offset} (h4 : off.toNat % 4 = 0) (h : Reg.ofOffset off = r)
    (hr : r.offset = some off') : off = off' := by
  subst h
  have hn : Reg.ofOffset off ≠ .reserved := fun hn => by simp [hn, Reg.offset] at hr
  exact Option.some.inj ((Reg.offset_ofOffset h4 hn).symm.trans hr)

/-- The aligned offsets that hold no named register are the reserved ones (R34). -/
theorem Reg.ofOffset_eq_reserved_iff {off : Offset} (h4 : off.toNat % 4 = 0) :
    Reg.ofOffset off = .reserved ↔ ReservedOffset off := by
  refine ⟨fun h => ?_, Reg.ofOffset_reserved⟩
  rcases Reg.named_or_reserved h4 with ⟨r, hr⟩ | hres
  · have : r = .reserved := (Reg.ofOffset_of_offset hr).1.symm.trans h
    rw [this] at hr
    cases hr
  · exact hres

/-- Settles O31: every aligned offset is that of one named register, or reserved. -/
theorem registerMapRoundTrip : Obligations.RegisterMapRoundTrip := by
  unfold Obligations.RegisterMapRoundTrip
  exact ⟨fun _ _ => Reg.ofOffset_of_offset, fun _ => Reg.offset_ofOffset, fun _ => Reg.ofOffset_eq_reserved_iff⟩

/-! ### Register writes and reads -/

section
variable (e : Engine) (r : Reg) (v : Word)

@[simp] theorem Engine.setReg_w : (e.setReg r v).w = e.w := by cases r <;> rfl
@[simp] theorem Engine.setReg_wp : (e.setReg r v).wp = e.wp := by cases r <;> rfl
@[simp] theorem Engine.setReg_j : (e.setReg r v).j = e.j := by cases r <;> rfl
@[simp] theorem Engine.setReg_pending : (e.setReg r v).pending = e.pending := by cases r <;> rfl
@[simp] theorem Engine.setReg_progress : (e.setReg r v).progress = e.progress := by cases r <;> rfl

end

/-- A register that a command's run protects reads back what is written to it, and every other holds (R37). -/
theorem Engine.regValue_setReg (e : Engine) {r : Reg} (q : Reg) (v : Word) (hr : r.isProtected = true)
    (hc : r ≠ .ctrl) : (e.setReg r v).regValue q = if q = r then v else e.regValue q := by
  cases r with
  | ctrl => exact absurd rfl hc
  | status | inten | round | ident | w | wp | reserved => simp [Reg.isProtected] at hr
  | msgAddr | msgLen => cases q <;> rfl
  | v i =>
    cases q with
    | v k => simp [Engine.setReg, Engine.regValue, Vector.getElem_set, Fin.ext_iff, eq_comm]
    | _ => rfl
  | blk i =>
    cases q with
    | blk k => simp [Engine.setReg, Engine.regValue, Vector.getElem_set, Fin.ext_iff, eq_comm]
    | _ => rfl

/-- A legal host write of the offset of a register other than CTRL, which is not dropped, sets it. -/
theorem State.hostWrite_set {s : State} {r : Reg} {off : Offset} (v : Word) (hs : s.resetAsserted = false)
    (ho : r.offset = some off) (hb : s.engine.busy = true → r.isProtected = false) (hc : r ≠ .ctrl) :
    s.hostWrite 32 off v = .next { s with engine := s.engine.setReg r v } := by
  obtain ⟨hreg, h4⟩ := Reg.ofOffset_of_offset ho
  rw [State.hostWrite_legal v hs h4, hreg, State.writeReg_set v hb hc]

/-- A host read of a named register returns the value the machine shows of it. -/
theorem State.hostRead_offset {s : State} {r : Reg} {off : Offset} (hs : s.resetAsserted = false)
    (ho : r.offset = some off) : s.hostRead 32 off =
      .next { s with draws := s.draws + 1, replies := s.replies ++ [.data off (s.readValue r)] } := by
  obtain ⟨hreg, h4⟩ := Reg.ofOffset_of_offset ho
  rw [State.hostRead_legal hs h4, State.readReg, hreg]

/-- While idle every register reads as what it holds (R64). -/
theorem State.readValue_idle {s : State} (r : Reg) (h : s.engine.busy = false) :
    s.readValue r = s.engine.regValue r := by
  simp [State.readValue, h]

/-- INTEN reads as what it holds, idle or busy (R64). -/
theorem State.readValue_inten (s : State) : s.readValue .inten = s.engine.intenWord := by
  simp [State.readValue, Reg.isData, Engine.regValue]

/-- Settles O38: the write leaves the engine idle, and an idle engine shows what its registers hold. -/
theorem writtenRegisterReadsBack : Obligations.WrittenRegisterReadsBack := by
  unfold Obligations.WrittenRegisterReadsBack
  intro s r q off offq v ⟨hp, hs⟩ hr hq hprot hc
  have idle : s.engine.busy = false := by simp [Engine.busy, hp]
  refine ⟨_, State.hostWrite_set v hs hr (by simp [idle]) hc, ⟨by simp [hp], hs⟩, ?_⟩
  rw [State.hostRead_offset (by exact hs) hq, State.readValue_idle q (by simp [Engine.busy, hp]),
    Engine.regValue_setReg s.engine q v hprot hc]

/-- Settles O36: INTEN is not protected and reads as what it holds, idle or busy. -/
theorem intenReadsBackTwoBits : Obligations.IntenReadsBackTwoBits := by
  unfold Obligations.IntenReadsBackTwoBits
  refine ⟨rfl, fun s v hs => ⟨{ s with engine := s.engine.writeInten v },
    State.hostWrite_set (r := .inten) v hs rfl (fun _ => rfl) (by decide), rfl, ?_⟩⟩
  rw [State.hostRead_offset (r := .inten) (by exact hs) rfl, State.readValue_inten, Engine.intenWord_writeInten]

/-! ### STATUS -/

/-- Only bits 3:1 of a word written to STATUS matter (R31). -/
theorem Engine.clearStatus_congr (e : Engine) {v v' : Word} (h : v.extractLsb' 1 3 = v'.extractLsb' 1 3) :
    e.clearStatus v = e.clearStatus v' := by
  have bit : ∀ i, i < 3 → v.getLsbD (1 + i) = v'.getLsbD (1 + i) := by
    intro i hi
    have := congrArg (·.getLsbD i) h
    simpa [BitVec.getLsbD_extractLsb', hi] using this
  have h1 : v[1] = v'[1] := bit 0 (by decide)
  have h2 : v[2] = v'[2] := bit 1 (by decide)
  have h3 : v[3] = v'[3] := bit 2 (by decide)
  simp only [Engine.clearStatus, h1, h2, h3]

/-- Settles O35: STATUS is not protected, and its write is `Engine.clearStatus`, idle or busy. -/
theorem statusWriteOneClears : Obligations.StatusWriteOneClears := by
  unfold Obligations.StatusWriteOneClears
  have write : ∀ (s : State) (v : Word), s.resetAsserted = false →
      s.hostWrite 32 0x004 v = .next { s with engine := s.engine.clearStatus v } := fun s v hs =>
    State.hostWrite_set (r := .status) v hs rfl (fun _ => rfl) (by decide)
  have clear : ∀ b w : Bool, (b && !w) = if w then false else b := by decide
  refine ⟨fun s v hs => ⟨_, write s v hs, clear _ _, clear _ _, rfl, clear _ _, rfl⟩, fun s v v' h => ?_⟩
  cases hs : s.resetAsserted with
  | false => rw [write s v hs, write s v' hs, Engine.clearStatus_congr _ h]
  | true => simp [State.hostWrite, hs]

/-- Settles O39: the layout of STATUS with J in its J field. -/
theorem statusFieldLayout : Obligations.StatusFieldLayout := by
  unfold Obligations.StatusFieldLayout
  exact fun e => e.statusWith_fields e.j

/-! ### Reset values, and the engine's turn on the pending command -/

/-- Settles O42 by evaluation; the zero registers hold a replicated 0. -/
theorem resetValues : Obligations.ResetValues := by
  unfold Obligations.ResetValues
  refine ⟨rfl, ?_, ?_, ?_, ?_, rfl, rfl, rfl, rfl, rfl, rfl, rfl, rfl, rfl, rfl, rfl, rfl, rfl, rfl⟩
  all_goals
    intro i
    exact Vector.getElem_replicate i.isLt

/-- The engine's turn, outside reset, is the pending command's meaning (R222, R262). -/
theorem State.finishCommand_eq_exec {s : State} {c : Word} {i : Instr} (hs : s.resetAsserted = false)
    (hp : s.engine.pending = some c) (hi : decode c = .ok i) : s.finishCommand = exec i s := by
  simp only [State.finishCommand, hs, hp, hi, Bool.false_eq_true, if_false]

/-- Settles O26: both forms of the step are the engine's turn. -/
theorem stepRunsDecodedCommand : Obligations.StepRunsDecodedCommand := by
  unfold Obligations.StepRunsDecodedCommand
  intro s c i hp hi _ hs
  constructor
  · intro rest hin
    rw [step_of_input hin]
    exact State.finishCommand_eq_exec (s := { s with inputs := rest }) hs hp hi
  · intro hin
    rw [step_of_no_input hin]
    exact State.finishCommand_eq_exec hs hp hi

end Sys2Proof.Machine
end

section
/-! What a step can do to the engine, said once: `Engine.Turn` for the engine's own turns, `Engine.Written` for an
accepted host write, and `StepChange` for a whole step (spec 10_state.md R36, R37; 20_memory.md R65, R66). -/

namespace Sys2Proof.Machine

/-! ### The engine's turns -/

/-- What one turn of the engine makes of its registers (R36, R228 to R230). -/
inductive Engine.Turn (e : Engine) : Engine → Prop
  /-- nothing is to be done -/
  | rest : e.Turn e
  /-- HASH reads a byte -/
  | read (b : Byte) (hp : e.pending = some (encode .hash)) (hl : e.progress.bytes.length < e.msgLen.toNat) :
      e.Turn { e with progress := { e.progress with bytes := e.progress.bytes ++ [b] } }
  /-- HASH compresses a block -/
  | block (hp : e.pending = some (encode .hash)) (hr : e.blockReady = true) :
      e.Turn { e.hashBlock e.progress.block with progress := { e.progress with block := e.progress.block + 1 } }
  /-- the pending command completes -/
  | complete (f : Engine) (hb : e.busy = true) (hf : f.Effect e) : e.Turn f.complete
  /-- the pending command ends with a precise error -/
  | fail (c : ErrorCode) (hb : e.busy = true) (hc : c = .roundRange ∨ c = .sequence ∨ c = .addrRange) :
      e.Turn (e.raiseError c)
  /-- HASH ends with BUS_ERROR -/
  | busError (d : Nat) (hp : e.pending = some (encode .hash)) : e.Turn ((e.scramble d).raiseError .busError)

/-- A turn of the engine: of the state it changes the engine, and neither memory nor the reset input (R68). -/
structure State.Turn (s t : State) : Prop where
  engine : s.engine.Turn t.engine
  mem : t.mem = s.mem
  reset : t.resetAsserted = s.resetAsserted

theorem State.Turn.rest (s : State) : s.Turn s := ⟨.rest, rfl, rfl⟩

/-- BUS_ERROR after some reads is BUS_ERROR: the progress is abandoned (R229). -/
theorem State.afterReads_failBusError_engine (s : State) (got : List Byte × Bool) :
    (s.afterReads got).failBusError.engine = (s.engine.scramble (s.afterReads got).draws).raiseError .busError := rfl

/-- The reads of a HASH touch none of the registers that an effect is about. -/
theorem Engine.Effect.of_afterReads {s : State} {got : List Byte × Bool} {f : Engine}
    (h : f.Effect (s.afterReads got).engine) : f.Effect s.engine :=
  h.trans ⟨⟨rfl, rfl, rfl, rfl, rfl, rfl, rfl, rfl, rfl⟩, .inl rfl, .inl ⟨rfl, rfl⟩⟩

/-- The decoder reads the encoder backwards. -/
theorem encode_of_decode {c : Word} {i : Instr} (h : decode c = .ok i) : c = encode i := by
  unfold decode at h
  split_ifs at h with hr
  have hr : c.extractLsb' 4 28 = 0 := not_not.mp hr
  split at h
  · next k hk =>
    cases h
    rw [commandOf_eq_some, command_of_reserved_zero hr] at hk
    exact BitVec.eq_of_toNat_eq hk
  · cases h

theorem Engine.busy_of_pending {e : Engine} {c : Word} (h : e.pending = some c) : e.busy = true := by
  simp [Engine.busy, h]

theorem Engine.busy_eq_false {e : Engine} : e.busy = false ↔ e.pending = none := by
  simp [Engine.busy]

/-- Running the pending command is a turn. -/
theorem exec_turn {s t : State} {c : Word} {i : Instr} (hp : s.engine.pending = some c) (hi : decode c = .ok i)
    (h : exec i s = .next t) : s.Turn t := by
  have hb := Engine.busy_of_pending hp
  rcases exec_next_cases h with ⟨got, f, rfl, hf, -⟩ | ⟨code, rfl, hcode⟩ | ⟨got, rfl, rfl⟩
  · exact ⟨.complete f hb hf.of_afterReads, rfl, rfl⟩
  · exact ⟨.fail code hb hcode, rfl, rfl⟩
  · rw [encode_of_decode hi] at hp
    exact ⟨s.afterReads_failBusError_engine got ▸ .busError _ hp, rfl, rfl⟩

theorem State.finishCommand_turn {s t : State} (h : s.finishCommand = .next t) : s.Turn t := by
  rcases State.finishCommand_cases h with rfl | ⟨c, i, -, hp, hi, hx⟩
  · exact .rest t
  · exact exec_turn hp hi hx

theorem State.advanceRead_turn {s t : State} (h : s.advanceRead = .next t) : s.Turn t := by
  rcases State.advanceRead_cases h with rfl | ⟨hrun, -, hl, ⟨b, -, rfl⟩ | ⟨-, rfl⟩⟩
  · exact .rest t
  · obtain ⟨-, hp, -⟩ := s.hashRunning_iff.mp hrun
    exact ⟨.read b hp hl, rfl, rfl⟩
  · obtain ⟨-, hp, -⟩ := s.hashRunning_iff.mp hrun
    exact ⟨s.afterReads_failBusError_engine _ ▸ .busError _ hp, rfl, rfl⟩

theorem State.advanceCompress_turn (s : State) : s.Turn s.advanceCompress := by
  rcases s.advanceCompress_cases with heq | ⟨hrun, hready, heq⟩ <;> rw [heq]
  · exact .rest s
  · obtain ⟨-, hp, -⟩ := s.hashRunning_iff.mp hrun
    exact ⟨.block hp hready, rfl, rfl⟩

/-- An engine that is not busy has nothing to do. -/
theorem Engine.Turn.eq_of_idle {e f : Engine} (h : e.Turn f) (hp : e.pending = none) : f = e := by
  have hb := Engine.busy_eq_false.mpr hp
  cases h with
  | rest => rfl
  | read b hp' => simp [hp] at hp'
  | block hp' => simp [hp] at hp'
  | complete f hb' => simp [hb] at hb'
  | fail c hb' => simp [hb] at hb'
  | busError d hp' => simp [hp] at hp'

/-! ### Host writes -/

/-- What an accepted host write of `v` to a register makes of the engine (R65, R66). -/
inductive Engine.Written (e : Engine) (r : Reg) (v : Word) : Engine → Prop
  /-- busy: the write is dropped -/
  | dropped (hb : e.busy = true) (hr : r.isProtected = true) : e.Written r v { e with ovr := true }
  /-- a command starts -/
  | started (i : Instr) (hb : e.busy = false) (hr : r = .ctrl) (hi : decode v = .ok i) :
      e.Written r v (e.startCommand v)
  /-- a word written to CTRL is no command -/
  | illegal (hb : e.busy = false) (hr : r = .ctrl) : e.Written r v e.illegalCommand
  /-- the register is set -/
  | set (hb : e.busy = true → r.isProtected = false) (hr : r ≠ .ctrl) : e.Written r v (e.setReg r v)

/-- A host write changes the engine so, and neither memory nor the reset input. -/
theorem State.writeReg_written (s : State) (r : Reg) (v : Word) :
    s.engine.Written r v (s.writeReg r v).engine ∧ (s.writeReg r v).mem = s.mem ∧
      (s.writeReg r v).resetAsserted = s.resetAsserted := by
  rcases s.writeReg_cases r v with ⟨hb, hr, heq⟩ | ⟨hb, hr, heq⟩ | ⟨hb, hr, heq⟩
  · rw [heq]
    exact ⟨.dropped hb hr, rfl, rfl⟩
  · rcases s.submit_cases v with ⟨i, hi, hs⟩ | ⟨-, -, hs⟩ <;> rw [heq, hs]
    · exact ⟨.started i hb hr hi, rfl, rfl⟩
    · exact ⟨.illegal hb hr, rfl, rfl⟩
  · rw [heq]
    exact ⟨.set hb hr, rfl, rfl⟩

/-- A host write is refused in reset, answered with a bus error, or accepted (R62). -/
theorem State.hostWrite_cases {s t : State} {width : Nat} {off : Offset} {v : Word}
    (h : s.hostWrite width off v = .next t) :
    s.resetAsserted = false ∧ (t = s.replyBusError ∨
      (width = 32 ∧ off.toNat % 4 = 0 ∧ t = s.writeReg (Reg.ofOffset off) v)) := by
  unfold State.hostWrite at h
  split_ifs at h with hr hl
  all_goals
    cases h
    refine ⟨by simpa using hr, ?_⟩
  · exact .inr (by simpa [accessLegal] using hl)
  · exact .inl rfl

/-- A host read leaves all but the counter of draws and the replies. -/
theorem State.hostRead_cases {s t : State} {width : Nat} {off : Offset} (h : s.hostRead width off = .next t) :
    t = s.readReg off ∨ t = s.replyBusError := by
  unfold State.hostRead at h
  split_ifs at h
  · cases h
    exact .inl rfl
  · cases h
    exact .inr rfl

/-- A poll of WAIT leaves the engine, memory and the reset input. -/
theorem State.poll_frame {s t : State} (h : s.poll = .next t) :
    t.engine = s.engine ∧ t.mem = s.mem ∧ t.resetAsserted = s.resetAsserted := by
  unfold State.poll at h
  split_ifs at h
  all_goals
    cases h
    exact ⟨rfl, rfl, rfl⟩

/-! ### A whole step -/

/-- The inputs that are a turn of the engine. -/
def Input.IsTurn (x : Input) : Prop := x = .engineRead ∨ x = .engineCompress ∨ x = .engineFinish

/-- What performing an input does: to the engine, to the reset input, and to the canonical form of memory. -/
inductive InputChange (s t : State) (x : Input) : Prop
  /-- the engine is left alone -/
  | frame (he : t.engine = s.engine) (hr : t.resetAsserted = true → s.resetAsserted = true)
      (hm : s.mem.wf = true → t.mem.wf = true)
  /-- reset is asserted -/
  | reset (hx : x = .assertReset) (he : t.engine = Engine.reset) (hm : t.mem = s.mem)
  /-- a host write is accepted -/
  | write (off : Offset) (v : Word) (hx : x = .hostWrite 32 off v) (ho : off.toNat % 4 = 0)
      (he : s.engine.Written (Reg.ofOffset off) v t.engine) (hr : t.resetAsserted = false) (hm : t.mem = s.mem)
  /-- the engine takes a turn -/
  | turn (hx : x.IsTurn) (ht : s.Turn t)

theorem State.perform_change {s t : State} {x : Input} (h : s.perform x = .next t) : InputChange s t x := by
  cases x with
  | hostRead width off =>
    rcases State.hostRead_cases h with rfl | rfl <;> exact .frame rfl id id
  | hostWrite width off v =>
    obtain ⟨hr, rfl | ⟨rfl, ho, rfl⟩⟩ := State.hostWrite_cases h
    · exact .frame rfl id id
    · obtain ⟨he, hm, hreset⟩ := s.writeReg_written (Reg.ofOffset off) v
      exact .write off v rfl ho he (hreset.trans hr) hm
  | wait =>
    obtain ⟨he, hm, hr⟩ := State.poll_frame h
    exact .frame he (hr ▸ id) (hm ▸ id)
  | store g a b =>
    cases h
    exact .frame (s.storeByte_engine g a b) (s.storeByte_resetAsserted g a b ▸ id) (State.storeByte_wf g a b)
  | makeVisible a =>
    cases h
    exact .frame rfl id (State.makeVisible_wf a)
  | engineRead => exact .turn (.inl rfl) (State.advanceRead_turn h)
  | engineCompress =>
    cases h
    exact .turn (.inr (.inl rfl)) s.advanceCompress_turn
  | engineFinish => exact .turn (.inr (.inr rfl)) (State.finishCommand_turn h)
  | assertReset =>
    cases h
    exact .reset rfl rfl rfl
  | releaseReset =>
    cases h
    exact .frame rfl (fun h => nomatch h) id

/-- A step is a turn of the engine, with no input left, or performs the oldest input. -/
theorem step_cases {s t : State} (h : step s = .next t) :
    s.Turn t ∨ ∃ x rest, s.inputs = x :: rest ∧ InputChange { s with inputs := rest } t x := by
  cases hin : s.inputs with
  | nil =>
    rw [step_of_no_input hin] at h
    exact .inl (State.finishCommand_turn h)
  | cons x rest =>
    rw [step_of_input hin] at h
    exact .inr ⟨x, rest, rfl, State.perform_change h⟩

end Sys2Proof.Machine
end

section
/-! Invariants of the whole machine: O50, O51 and O52, and what may change the engine and its message registers: O48 and
O49 (spec 10_state.md R26 to R28, R30, R36, R37, R41). -/

namespace Sys2Proof.Machine

/-! ### The engine's invariant -/

/-- The part of the machine's invariant that speaks of the engine. -/
structure Engine.Inv (e : Engine) : Prop where
  round : e.RoundInRange
  status : e.StatusConsistent
  pending : e.PendingLegal
  progress : e.ProgressConsistent

theorem State.inv_iff (s : State) :
    s.Inv ↔ s.engine.Inv ∧ s.mem.wf = true ∧ (s.resetAsserted = true → s.engine = Engine.reset) :=
  ⟨fun h => ⟨⟨h.round, h.status, h.pending, h.progress⟩, h.memory, h.reset⟩,
    fun ⟨h, hm, hr⟩ => ⟨h.round, h.status, h.pending, h.progress, hm, hr⟩⟩

/-- With no progress there is nothing to be consistent with. -/
theorem Engine.progressConsistent_of_start {e : Engine} (h : e.progress = HashProgress.start) :
    e.ProgressConsistent := by
  unfold Engine.ProgressConsistent
  rw [h]
  exact ⟨Nat.zero_le _, .inl (Nat.zero_le _), fun hk => absurd hk (Nat.lt_irrefl 0)⟩

/-- An idle engine has no progress. -/
theorem Engine.PendingLegal.progress_of_idle {e : Engine} (h : e.PendingLegal) (hb : e.busy = false) :
    e.progress = HashProgress.start :=
  h.2 (by simp [Engine.busy_eq_false.mp hb])

/-- No command pending and no progress is legal. -/
theorem Engine.pendingLegal_of_idle {e : Engine} (hp : e.pending = none) (hs : e.progress = HashProgress.start) :
    e.PendingLegal :=
  ⟨fun c hc => by simp [hp] at hc, fun _ => hs⟩

theorem Engine.reset_inv : Engine.reset.Inv where
  round := by decide
  status := by decide
  pending := Engine.pendingLegal_of_idle rfl rfl
  progress := Engine.progressConsistent_of_start rfl

/-! ### Every change of the engine keeps its invariant -/

/-- Clearing fields of STATUS keeps it consistent (R31). -/
theorem Engine.StatusConsistent.clearStatus {e : Engine} (h : e.StatusConsistent) (v : Word) :
    (e.clearStatus v).StatusConsistent := by
  obtain ⟨hex, hbusy, hclear, hset⟩ := h
  refine ⟨?_, ?_, ?_, ?_⟩
  · simp only [Engine.clearStatus_done, Engine.clearStatus_err, Bool.and_eq_true]
    exact fun h => hex ⟨h.1.1, h.2.1⟩
  · simp only [Engine.clearStatus_busy, Engine.clearStatus_done, Engine.clearStatus_err]
    intro hb
    simp [hbusy hb]
  · simp only [Engine.clearStatus_err, Engine.clearStatus_errCode]
    cases v[2] with
    | false => simpa using hclear
    | true => simp
  · simp only [Engine.clearStatus_err, Engine.clearStatus_errCode]
    cases v[2] with
    | false => simpa using hset
    | true => simp

/-- STATUS is consistent after a command's error (R221, R229). -/
theorem Engine.raiseError_statusConsistent {e : Engine} (h : e.done = false) (c : ErrorCode) :
    (e.raiseError c).StatusConsistent :=
  have code : ∀ c : ErrorCode, 1 ≤ c.value.toNat ∧ c.value.toNat ≤ 5 := by
    intro c
    cases c <;> decide
  ⟨by simp [h], by simp, by simp, fun _ => code c⟩

theorem Engine.setReg_statusConsistent {e : Engine} (h : e.StatusConsistent) (r : Reg) (v : Word) :
    (e.setReg r v).StatusConsistent := by
  cases r with
  | status => exact h.clearStatus v
  | _ => exact h

/-- A write that is not dropped keeps HASH's progress consistent: while busy it is none of the registers the progress
speaks of. -/
theorem Engine.setReg_progressConsistent {e : Engine} (h : e.Inv) {r : Reg} (v : Word)
    (hr : e.busy = true → r.isProtected = false) : (e.setReg r v).ProgressConsistent := by
  cases hb : e.busy with
  | false => exact Engine.progressConsistent_of_start (by simp [h.pending.progress_of_idle hb])
  | true =>
    have hr := hr hb
    cases r with
    | msgAddr | msgLen | v | blk => simp [Reg.isProtected] at hr
    | _ => exact h.progress

theorem Engine.Inv.written {e f : Engine} {r : Reg} {v : Word} (h : e.Inv) (hw : e.Written r v f) : f.Inv := by
  cases hw with
  | dropped => exact ⟨h.round, h.status, h.pending, h.progress⟩
  | started i hb hr hi =>
    refine ⟨h.round, ⟨by simp, by simp, by simp, by simp⟩, ⟨?_, fun _ => rfl⟩,
      Engine.progressConsistent_of_start rfl⟩
    intro c hc
    cases hc
    exact wellFormedWord_of_decode hi
  | illegal hb hr =>
    exact ⟨h.round, ⟨by simp, by simp [hb], by simp, by simp⟩, h.pending, h.progress⟩
  | set hb hr =>
    refine ⟨?_, Engine.setReg_statusConsistent h.status r v, ?_, Engine.setReg_progressConsistent h v hb⟩
    · rw [Engine.RoundInRange, Engine.setReg_j]
      exact h.round
    · rw [Engine.PendingLegal, Engine.setReg_pending, Engine.setReg_progress]
      exact h.pending

/-- The free value of J after BUS_ERROR is in 0..64 (R230). -/
theorem Engine.scramble_roundInRange (e : Engine) (d : Nat) : (e.scramble d).RoundInRange := by
  have := (Config.freeRound (d + 164)).isLt
  simp only [Engine.RoundInRange, Engine.scramble, BitVec.toNat_ofNat]
  omega

theorem Engine.Inv.turn {e f : Engine} (h : e.Inv) (ht : e.Turn f) : f.Inv := by
  obtain ⟨-, hbusy, hclear, -⟩ := h.status
  cases ht with
  | rest => exact h
  | read b hp hl =>
    refine ⟨h.round, h.status, ⟨h.pending.1, fun hn => absurd hp hn⟩, h.progress.more_bytes [b] ?_⟩
    rw [List.length_singleton]
    exact hl
  | block hp hr =>
    refine ⟨by simp [Engine.RoundInRange], ?_, ?_, h.progress.next_block hr⟩
    · simpa [Engine.StatusConsistent, Engine.busy] using h.status
    · simpa [Engine.PendingLegal, hp] using h.pending.1 _ hp
  | complete f hb hf =>
    obtain ⟨-, he⟩ := hbusy hb
    refine ⟨?_, ⟨?_, ?_, ?_, ?_⟩, Engine.pendingLegal_of_idle rfl rfl, Engine.progressConsistent_of_start rfl⟩
    · rcases hf.round with hj | hj
      · rw [Engine.RoundInRange, Engine.complete_j, hj]
        exact h.round
      · exact hj
    · simp [hf.control.err, he]
    · simp
    · simp [hf.control.errCode, hclear he]
    · simp [hf.control.err, he]
  | fail c hb hc =>
    exact ⟨h.round, Engine.raiseError_statusConsistent (hbusy hb).1 c, Engine.pendingLegal_of_idle rfl rfl,
      Engine.progressConsistent_of_start rfl⟩
  | busError d hp =>
    exact ⟨e.scramble_roundInRange d,
      Engine.raiseError_statusConsistent (e := e.scramble d) (hbusy (Engine.busy_of_pending hp)).1 _,
      Engine.pendingLegal_of_idle rfl rfl, Engine.progressConsistent_of_start rfl⟩

/-- A turn of the engine keeps the machine's invariant: in reset the engine is idle and stays as it is. -/
theorem State.Inv.turn {s t : State} (h : s.Inv) (ht : s.Turn t) : t.Inv := by
  rw [State.inv_iff] at h ⊢
  obtain ⟨he, hm, hr⟩ := h
  refine ⟨he.turn ht.engine, ht.mem ▸ hm, fun hreset => ?_⟩
  have hs := hr (ht.reset ▸ hreset)
  rw [ht.engine.eq_of_idle (by rw [hs]; rfl), hs]

theorem State.Inv.input {s t : State} {x : Input} (h : s.Inv) (hx : InputChange s t x) : t.Inv := by
  rw [State.inv_iff] at h
  obtain ⟨he, hm, hr⟩ := h
  cases hx with
  | frame he' hr' hm' => exact t.inv_iff.mpr ⟨he' ▸ he, hm' hm, fun hreset => he'.trans (hr (hr' hreset))⟩
  | reset _ he' hm' => exact t.inv_iff.mpr ⟨he' ▸ Engine.reset_inv, hm' ▸ hm, fun _ => he'⟩
  | write off v _ _ hw hr' hm' =>
    exact t.inv_iff.mpr ⟨he.written hw, hm' ▸ hm, fun hreset => by simp [hr'] at hreset⟩
  | turn _ ht => exact State.Inv.turn (s.inv_iff.mpr ⟨he, hm, hr⟩) ht

/-- Settles O50: a turn of the engine and a performed input each keep the invariant. -/
theorem stepKeepsInvariant : Obligations.StepKeepsInvariant := by
  unfold Obligations.StepKeepsInvariant
  intro s t hs h
  rcases step_cases h with ht | ⟨x, rest, -, hx⟩
  · exact hs.turn ht
  · have hs' : State.Inv { s with inputs := rest } :=
      ⟨hs.round, hs.status, hs.pending, hs.progress, hs.memory, hs.reset⟩
    exact hs'.input hx

/-! ### The relation between W and WP -/

theorem Engine.primeRelation_iff (e : Engine) :
    e.PrimeRelation ↔ ∀ j : Fin 64, e.wp[j] = e.w[j.val] ^^^ e.w[j.val + 4] := by
  constructor
  · intro h j
    rw [show e.wp = primeWords e.w from h]
    exact primeWords_getElem e.w j.isLt
  · intro h
    refine Vector.ext fun j hj => ?_
    rw [primeWords_getElem e.w hj]
    exact h ⟨j, hj⟩

theorem Engine.reset_primeRelation : Engine.reset.PrimeRelation := by
  rw [Engine.primeRelation_iff]
  simp [Engine.reset]

theorem Engine.PrimeRelation.written {e f : Engine} {r : Reg} {v : Word} (h : e.PrimeRelation)
    (hw : e.Written r v f) : f.PrimeRelation := by
  cases hw with
  | dropped | started | illegal => exact h
  | set =>
    rw [Engine.PrimeRelation, Engine.setReg_w, Engine.setReg_wp]
    exact h

/-- A turn keeps the relation, or it is the one in which HASH ends with BUS_ERROR. -/
theorem Engine.PrimeRelation.turn {e f : Engine} (h : e.PrimeRelation) (ht : e.Turn f) :
    f.PrimeRelation ∨
      (e.pending = some (encode .hash) ∧ f.pending = none ∧ f.err = true ∧ f.errCode = 0x5) := by
  cases ht with
  | rest | read | fail => exact .inl h
  | block => exact .inl (by simp [Engine.PrimeRelation])
  | complete f hb hf =>
    rcases hf.prime with ⟨hw, hwp⟩ | hp
    · exact .inl (by rw [Engine.PrimeRelation, Engine.complete_w, Engine.complete_wp, hw, hwp]; exact h)
    · exact .inl hp
  | busError d hp => exact .inr ⟨hp, rfl, rfl, rfl⟩

/-- Settles O52: of all a step can do to the engine, only BUS_ERROR leaves W and WP unrelated. -/
theorem stepKeepsPrimeRelation : Obligations.StepKeepsPrimeRelation := by
  unfold Obligations.StepKeepsPrimeRelation
  intro s t hs h
  rw [← Engine.primeRelation_iff] at hs ⊢
  rcases step_cases h with ht | ⟨x, rest, -, hx⟩
  · exact hs.turn ht.engine
  · cases hx with
    | frame he => exact .inl (he ▸ hs)
    | reset _ he => exact .inl (he ▸ Engine.reset_primeRelation)
    | write off v _ _ hw => exact .inl (Engine.PrimeRelation.written hs hw)
    | turn _ ht => exact Engine.PrimeRelation.turn hs ht.engine

/-- Settles O51: the engine meets its part, and no byte is stored. -/
theorem resetMeetsInvariant : Obligations.ResetMeetsInvariant := by
  unfold Obligations.ResetMeetsInvariant
  exact ⟨State.reset.inv_iff.mpr ⟨Engine.reset_inv, rfl, fun _ => rfl⟩, Engine.reset_primeRelation⟩

/-! ### What may change the engine and the message registers -/

/-- Settles O48: the inputs that leave the engine alone are those of the case `InputChange.frame`. -/
theorem engineChangesOnlyByItsInputs : Obligations.EngineChangesOnlyByItsInputs := by
  unfold Obligations.EngineChangesOnlyByItsInputs
  intro s t x rest hin h hne
  rw [step_of_input hin] at h
  cases State.perform_change h with
  | frame he => exact absurd he hne
  | reset hx => exact .inr (.inr (.inr (.inl hx)))
  | write off v hx ho => exact .inr (.inr (.inr (.inr ⟨off, v, hx, ho⟩)))
  | turn hx =>
    rcases hx with hx | hx | hx
    · exact .inl hx
    · exact .inr (.inl hx)
    · exact .inr (.inr (.inl hx))

/-- No turn of the engine writes MSG_ADDR or MSG_LEN (R27, R28). -/
theorem Engine.Turn.message_eq {e f : Engine} (h : e.Turn f) : f.msgAddr = e.msgAddr ∧ f.msgLen = e.msgLen := by
  cases h with
  | rest | read | fail => exact ⟨rfl, rfl⟩
  | block => exact ⟨e.hashBlock_msgAddr e.progress.block, e.hashBlock_msgLen e.progress.block⟩
  | complete f hb hf => exact ⟨hf.control.msgAddr, hf.control.msgLen⟩
  | busError d => exact ⟨e.scramble_msgAddr d, e.scramble_msgLen d⟩

/-- A host write changes MSG_ADDR or MSG_LEN only as a write of that register, while idle (R65, R66). -/
theorem Engine.Written.message_cases {e f : Engine} {r : Reg} {v : Word} (h : e.Written r v f) :
    (f.msgAddr = e.msgAddr ∨ (e.busy = false ∧ r = .msgAddr ∧ f.msgAddr = v)) ∧
      (f.msgLen = e.msgLen ∨ (e.busy = false ∧ r = .msgLen ∧ f.msgLen = v)) := by
  cases h with
  | dropped | started | illegal => exact ⟨.inl rfl, .inl rfl⟩
  | set hb =>
    cases r with
    | msgAddr => exact ⟨.inr ⟨by simpa [Reg.isProtected] using hb, rfl, rfl⟩, .inl rfl⟩
    | msgLen => exact ⟨.inl rfl, .inr ⟨by simpa [Reg.isProtected] using hb, rfl, rfl⟩⟩
    | _ => exact ⟨.inl rfl, .inl rfl⟩

/-- Settles O49: a turn of the engine leaves both registers alone. -/
theorem messageRegistersChangeOnlyByHost : Obligations.MessageRegistersChangeOnlyByHost := by
  unfold Obligations.MessageRegistersChangeOnlyByHost
  intro s t h
  rcases step_cases h with ht | ⟨x, rest, hin, hx⟩
  · obtain ⟨ha, hl⟩ := ht.engine.message_eq
    exact ⟨fun hne => absurd ha hne, fun hne => absurd hl hne⟩
  rw [hin]
  cases hx with
  | frame he => exact ⟨fun hne => absurd (congrArg _ he) hne, fun hne => absurd (congrArg _ he) hne⟩
  | reset hx => exact ⟨fun _ => ⟨rest, .inl (hx ▸ rfl)⟩, fun _ => ⟨rest, .inl (hx ▸ rfl)⟩⟩
  | write off v hx h4 hw =>
    obtain ⟨ha, hl⟩ := hw.message_cases
    refine ⟨fun hne => ?_, fun hne => ?_⟩
    · obtain ⟨hb, hr, hv⟩ := ha.resolve_left hne
      exact ⟨rest, .inr ⟨hb, by rw [hx, Reg.eq_of_ofOffset h4 hr rfl, hv]⟩⟩
    · obtain ⟨hb, hr, hv⟩ := hl.resolve_left hne
      exact ⟨rest, .inr ⟨hb, by rw [hx, Reg.eq_of_ofOffset h4 hr rfl, hv]⟩⟩
  | turn _ ht =>
    obtain ⟨ha, hl⟩ := ht.engine.message_eq
    exact ⟨fun hne => absurd ha hne, fun hne => absurd hl hne⟩

end Sys2Proof.Machine
end

section
/-! HASH and the master port: a HASH with no progress from its reads to its end, what the end of any command leaves, and
the settled O20, O23, O24 and O30 (spec 20_memory.md R68, R70, R72; 44_driver.md R194, R195; 60_exceptions.md R227). -/

namespace Sys2Proof.Machine

/-! ### HASH from its start -/

/-- The bytes that HASH reads when it has no progress and every read succeeds (R70). -/
def State.messageBytes (s : State) : List Byte :=
  (List.range s.engine.msgLen.toNat).map fun i => s.byteAt (s.engine.msgAddr.toNat + i) (s.draws + i)

@[simp] theorem State.messageBytes_length (s : State) : s.messageBytes.length = s.engine.msgLen.toNat := by
  simp [State.messageBytes]

/-- With no progress the first read is at MSG_ADDR (R70). -/
theorem Engine.nextAddr_of_start {e : Engine} (h : e.progress = HashProgress.start) : e.nextAddr = e.msgAddr.toNat := by
  simp [Engine.nextAddr, h, HashProgress.start]

/-- A HASH with no progress, past its checks: all the reads of the message, and then all its blocks (R194). -/
theorem execHash_of_start {s : State} (hs : s.engine.progress = HashProgress.start)
    (hr : s.engine.msgAddr.toNat + s.engine.msgLen.toNat ≤ 2 ^ 32) (hd : s.touchesDevice = false) :
    execHash s =
      let got := s.readRun s.engine.msgAddr.toNat s.draws s.engine.msgLen.toNat
      if got.2 then .next (s.afterReads got).failBusError
      else .next ((s.afterReads got).completeWith
        (s.engine.atBlock (pad got.1) (blockCount s.engine.msgLen.toNat))) := by
  have hbytes : s.engine.progress.bytes = [] := by rw [hs]; rfl
  rw [execHash_of_consistent (s.engine.rangeOk_iff.mpr hr) hd (Engine.progressConsistent_of_start hs), hbytes,
    State.readMessage, Engine.nextAddr_of_start hs]
  rfl

/-- Over ordinary memory every read succeeds, and HASH completes with the registers after the last block. -/
theorem execHash_of_memory {s : State} (hs : s.engine.progress = HashProgress.start)
    (hr : s.engine.msgAddr.toNat + s.engine.msgLen.toNat ≤ 2 ^ 32)
    (hm : ∀ i, i < s.engine.msgLen.toNat → s.platform.kindAt (s.engine.msgAddr.toNat + i) = .memory) :
    execHash s = .next ((s.afterReads (s.messageBytes, false)).completeWith
      (s.engine.atBlock (pad s.messageBytes) (blockCount s.engine.msgLen.toNat))) := by
  have hd : s.touchesDevice = false := State.touchesDevice_eq_false fun i hi => by
    rw [hm i hi]
    decide
  rw [execHash_of_start hs hr hd, State.readRun_of_memory s _ _ _ hm]
  rfl

/-- HASH completing after its reads changes the data registers and STATUS, ends its race window, and logs the reads. -/
theorem State.afterReads_completeWith_atBlock {s : State} (hs : s.engine.progress = HashProgress.start)
    (m p : List Byte) (k : Nat) :
    (s.afterReads (m, false)).completeWith (s.engine.atBlock p k) = { s with
      engine := { s.engine.atBlock p k with done := true, pending := none, progress := HashProgress.start }
      racing := []
      draws := s.draws + m.length
      portReads := s.portReads ++
        (List.range m.length).map fun i => BitVec.ofNat 32 (s.engine.msgAddr.toNat + i) } := by
  simp [State.completeWith, State.afterReads, Engine.complete, Engine.nextAddr_of_start hs]

/-- Settles O20: the registers are those after the last block, whose chaining value is the hash. -/
theorem hashComputesDigestOfMessage : Obligations.HashComputesDigestOfMessage := by
  unfold Obligations.HashComputesDigestOfMessage
  refine ⟨rfl, fun s hs hr hm => ⟨_, execHash_of_memory hs hr hm, ?_⟩⟩
  rw [State.afterReads_completeWith_atBlock hs, State.messageBytes_length]
  have hash : chainTo (pad s.messageBytes) (blockCount s.engine.msgLen.toNat) = hashWords s.messageBytes := by
    rw [hashWords_eq, State.messageBytes_length]
  exact ⟨hash, rfl, rfl, rfl, rfl, rfl,
    fun i => s.engine.atBlock_v_getElem (pad s.messageBytes) (blockCount_pos _) i.isLt, rfl⟩

/-- A HASH whose read at index `k` is the first to return BusError ends there, with the `k` bytes read before (R227). -/
theorem execHash_of_busError {s : State} {k : Nat} (hs : s.engine.progress = HashProgress.start)
    (hr : s.engine.msgAddr.toNat + s.engine.msgLen.toNat ≤ 2 ^ 32) (hd : s.touchesDevice = false)
    (hk : k < s.engine.msgLen.toNat) (hm : ∀ i, i < k → s.platform.kindAt (s.engine.msgAddr.toNat + i) = .memory)
    (he : s.platform.kindAt (s.engine.msgAddr.toNat + k) = .busError) :
    ∃ bytes : List Byte, bytes.length = k ∧ execHash s = .next (s.afterReads (bytes, true)).failBusError := by
  obtain ⟨rest, hn⟩ : ∃ rest, s.engine.msgLen.toNat = k + 1 + rest :=
    ⟨s.engine.msgLen.toNat - (k + 1), by omega⟩
  refine ⟨(List.range k).map fun i => s.byteAt (s.engine.msgAddr.toNat + i) (s.draws + i), by simp, ?_⟩
  rw [execHash_of_start hs hr hd, hn, s.readRun_of_busError _ _ k rest hm he]
  rfl

/-- Settles O23: HASH ends at the BusError, with one read logged beyond the bytes read; J is drawn from 0..64. -/
theorem hashBusError : Obligations.HashBusError := by
  unfold Obligations.HashBusError
  intro s k hs hr hk hm he hd
  obtain ⟨bytes, hlen, hexec⟩ := execHash_of_busError hs hr (State.touchesDevice_eq_false hd) hk hm he
  refine ⟨_, hexec, ?_, Engine.scramble_roundInRange (s.afterReads (bytes, true)).engine _, rfl⟩
  simp [State.afterReads, Engine.nextAddr_of_start hs, hlen]

theorem State.touchesDevice_eq_true {s : State} {i : Nat} (hi : i < s.engine.msgLen.toNat)
    (hd : s.platform.kindAt (s.engine.msgAddr.toNat + i) = .device) : s.touchesDevice = true := by
  simp only [State.touchesDevice, List.any_eq_true, List.mem_range, beq_iff_eq]
  exact ⟨i, hi, hd⟩

/-- Settles O24: past its range check HASH looks for a device, and there is one. -/
theorem hashRefusesDeviceRegion : Obligations.HashRefusesDeviceRegion := by
  unfold Obligations.HashRefusesDeviceRegion
  intro s i hr hi hd
  exact execHash_of_device (s.engine.rangeOk_iff.mpr hr) (State.touchesDevice_eq_true hi hd)

/-! ### What the end of a command leaves -/

/-- Settles O30: of the ways a command can end, the two with reads are those of HASH. -/
theorem onlyHashReadsMemory : Obligations.OnlyHashReadsMemory := by
  unfold Obligations.OnlyHashReadsMemory
  intro i s t hi h
  rcases exec_next_cases h with ⟨got, e, rfl, -, hgot⟩ | ⟨c, rfl, -⟩ | ⟨got, hhash, -⟩
  · rw [hgot hi, State.afterReads_nil]
    exact ⟨rfl, rfl⟩
  · exact ⟨rfl, rfl⟩
  · exact absurd hhash hi

/-- However a command ends, none is pending, its race window is closed, and what happens next is as it was. -/
theorem exec_next_idle {i : Instr} {s t : State} (h : exec i s = .next t) :
    t.engine.pending = none ∧ t.racing = [] ∧ t.inputs = s.inputs := by
  rcases exec_next_cases h with ⟨got, e, rfl, -, -⟩ | ⟨c, rfl, -⟩ | ⟨got, -, rfl⟩ <;> exact ⟨rfl, rfl, rfl⟩

end Sys2Proof.Machine
end

section
/-! What an access of the register slave port does: each register's row of the tables of reads and writes, illegal
accesses, the place of the window, and the settled O32, O33, O34, O37 and O41 (spec 20_memory.md R60 to R66). -/

namespace Sys2Proof.Machine

/-! ### Host reads (R64) -/

/-- A data register reads as a free value while busy and as what it holds while idle. -/
theorem State.readValue_data (s : State) {r : Reg} (hr : r.isData = true) :
    s.readValue r = if s.engine.busy then Config.freeWord s.draws else s.engine.regValue r := by
  cases hb : s.engine.busy <;> simp [State.readValue, hb, hr]

/-- Every other register but STATUS reads as what it holds, idle or busy. -/
theorem State.readValue_control (s : State) {r : Reg} (hr : r.isData = false) (hs : r ≠ .status) :
    s.readValue r = s.engine.regValue r := by
  simp [State.readValue, hr, hs]

/-- While busy STATUS reads with a free value in its J field. -/
theorem State.readValue_status_busy {s : State} (hb : s.engine.busy = true) :
    s.readValue .status = s.engine.statusWith (BitVec.ofNat 7 (Config.freeRound s.draws).val) := by
  simp [State.readValue, hb, Reg.isData]

/-- The J field holds every value in 0..64. -/
theorem toNat_round (j : Fin 65) : (BitVec.ofNat 7 j.val).toNat = j.val := by
  rw [BitVec.toNat_ofNat, Nat.mod_eq_of_lt (by omega)]

/-- The fields of INTEN, each where R32 puts it. -/
theorem Engine.intenWord_fields (e : Engine) :
    e.intenWord[0] = e.doneIE ∧ e.intenWord[1] = e.errIE ∧ e.intenWord.extractLsb' 2 30 = 0 := by
  refine ⟨?_, ?_, BitVec.eq_of_getLsbD_eq fun i hi => ?_⟩
  · simp [← BitVec.getLsbD_eq_getElem, Engine.intenWord_getLsbD]
  · simp [← BitVec.getLsbD_eq_getElem, Engine.intenWord_getLsbD]
  · rw [BitVec.getLsbD_extractLsb', Engine.intenWord_getLsbD, if_neg (by omega), if_neg (by omega)]
    simp

/-- Settles O32: one row of the table for each register. -/
theorem hostReadReturns : Obligations.HostReadReturns := by
  unfold Obligations.HostReadReturns
  intro s off hs h4
  refine ⟨_, State.hostRead_legal hs h4, ?_⟩
  generalize Reg.ofOffset off = r
  cases r with
  | status =>
    refine ⟨State.readValue_idle .status, fun hb hc => ?_⟩
    obtain ⟨fbusy, fdone, ferr, fovr, fcode, fround, fzero⟩ :=
      s.engine.statusWith_fields (BitVec.ofNat 7 (Config.freeRound s.draws).val)
    obtain ⟨hdone, herr⟩ := hc.2.1 hb
    rw [State.readValue_status_busy hb, fround, toNat_round]
    exact ⟨fbusy.trans hb, fdone.trans hdone, ferr.trans herr, fovr, fcode, rfl, Nat.le_of_lt_succ (Fin.isLt _),
      fzero⟩
  | inten =>
    rw [State.readValue_inten]
    exact s.engine.intenWord_fields
  | ctrl | msgAddr | msgLen | ident | reserved => exact s.readValue_control rfl (by decide)
  | v | blk | round | w | wp => exact s.readValue_data rfl

/-! ### Host writes (R65, R66) -/

/-- The encoder's word is decoded as the command it encodes. -/
theorem decode_of_encode (i : Instr) : decode (encode i) = .ok i := by cases i <;> rfl

/-- A command's word written to CTRL while idle starts the command (R222). -/
theorem State.submit_encode (s : State) (i : Instr) : s.submit (encode i) = s.startCommand (encode i) := by
  rcases s.submit_cases (encode i) with ⟨-, -, h⟩ | ⟨d, hd, -⟩
  · exact h
  · rw [decode_of_encode] at hd
    cases hd

/-- Any other word is reported (R223). -/
theorem State.submit_other (s : State) {v : Word} (h : ∀ i, v ≠ encode i) :
    s.submit v = { s with engine := s.engine.illegalCommand } := by
  rcases s.submit_cases v with ⟨i, hi, -⟩ | ⟨-, -, hs⟩
  · exact absurd (encode_of_decode hi) (h i)
  · exact hs

/-- A host write of CTRL while idle submits its word. -/
theorem State.hostWrite_ctrl {s : State} (v : Word) (hs : s.Idle) : s.hostWrite 32 0x000 v = .next (s.submit v) := by
  obtain ⟨hp, hreset⟩ := hs
  have hctrl : Reg.ofOffset 0x000 = .ctrl := by decide
  rw [State.hostWrite_legal v hreset (by decide), hctrl, State.writeReg_ctrl v (Engine.busy_eq_false.mpr hp)]

/-- A write of V[i] leaves the other words of V. -/
theorem Engine.setReg_v_getElem (e : Engine) (i k : Fin 8) (x : Word) :
    (e.setReg (.v i) x).v[k] = if k = i then x else e.v[k] := by
  simpa [Engine.regValue] using e.regValue_setReg (.v k) x (r := .v i) rfl (by simp)

/-- A write of BLK[i] leaves the other words of BLK. -/
theorem Engine.setReg_blk_getElem (e : Engine) (i k : Fin 16) (x : Word) :
    (e.setReg (.blk i) x).blk[k] = if k = i then x else e.blk[k] := by
  simpa [Engine.regValue] using e.regValue_setReg (.blk k) x (r := .blk i) rfl (by simp)

/-- Settles O33: CTRL takes a command or reports its word, and every other write sets its register. -/
theorem hostWriteWhileIdle : Obligations.HostWriteWhileIdle := by
  unfold Obligations.HostWriteWhileIdle
  refine ⟨fun s i hs => ?_, fun s v hs hv => ?_, fun s off v ⟨hp, hreset⟩ h4 hc => ?_⟩
  · rw [State.hostWrite_ctrl _ hs, State.submit_encode]
    rfl
  · rw [State.hostWrite_ctrl v hs, State.submit_other s hv]
    rfl
  · have idle := Engine.busy_eq_false.mpr hp
    rw [State.hostWrite_legal v hreset h4, State.writeReg_set v (by simp [idle]) hc]
    refine ⟨_, rfl, rfl, ?_⟩
    generalize Reg.ofOffset off = r
    cases r with
    | ctrl => trivial
    | v i => exact ⟨fun k => s.engine.setReg_v_getElem i k v, rfl⟩
    | blk i => exact ⟨fun k => s.engine.setReg_blk_getElem i k v, rfl⟩
    | status | inten | msgAddr | msgLen | round | ident | w | wp | reserved => rfl

/-- Settles O34: a write of a protected register is dropped, and any other sets its register. -/
theorem hostWriteWhileBusy : Obligations.HostWriteWhileBusy := by
  unfold Obligations.HostWriteWhileBusy
  intro s off v hb hreset h4
  rw [State.hostWrite_legal v hreset h4]
  generalize Reg.ofOffset off = r
  cases r with
  | ctrl | msgAddr | msgLen | v | blk =>
    rw [State.writeReg_busy v hb rfl]
    exact ⟨_, rfl, rfl, rfl, rfl⟩
  | status | inten | round | ident | w | wp | reserved =>
    rw [State.writeReg_set v (fun _ => rfl) (by simp)]
    exact ⟨_, rfl, rfl, rfl⟩

/-! ### Illegal accesses (R62), and the window (R60) -/

theorem accessLegal_eq_false {width : Nat} {off : Offset} (h : width ≠ 32 ∨ off.toNat % 4 ≠ 0) :
    accessLegal width off = false := by
  simpa [accessLegal, ← not_and_or] using h

/-- Settles O37: an illegal access of either kind is answered by the bus alone. -/
theorem illegalAccessChangesNothing : Obligations.IllegalAccessChangesNothing := by
  unfold Obligations.IllegalAccessChangesNothing
  intro s width off v hs h
  have hl := accessLegal_eq_false h
  constructor
  · simp [State.hostRead, hs, hl, State.replyBusError]
  · simp [State.hostWrite, hs, hl, State.replyBusError]

/-- An address names an offset exactly when it is the offset's bus address. -/
theorem windowOffset_eq_some_iff {a : Nat} {off : Offset} : windowOffset a = some off ↔ a = busAddress off := by
  have hlt := off.isLt
  unfold windowOffset busAddress
  split_ifs with h
  · rw [Option.some_inj, ← BitVec.toNat_inj, BitVec.toNat_ofNat]
    omega
  · simp only [false_iff]
    omega

theorem windowOffset_eq_none_iff (a : Nat) :
    windowOffset a = none ↔ a < Config.base ∨ Config.base + 1024 ≤ a := by
  unfold windowOffset
  split_ifs with h
  · simp only [false_iff]
    omega
  · simp only [true_iff]
    omega

/-- Settles O41: the window is a copy of the offsets at BASE. -/
theorem registerWindowIsOneKiBAtBase : Obligations.RegisterWindowIsOneKiBAtBase := by
  unfold Obligations.RegisterWindowIsOneKiBAtBase
  exact ⟨Nat.mul_mod_right 1024 Config.baseKiB, fun _ => windowOffset_eq_some_iff.mpr rfl,
    fun _ _ => windowOffset_eq_some_iff.mp, windowOffset_eq_none_iff⟩

end Sys2Proof.Machine
end

section
/-! The message space: what a byte reads as, in memory and among the values it may read as, after a store and after a
host store is made visible; what a step may do to memory; and the settled O44, O45, O46, O47 and O56 (spec 20_memory.md
R68, R69, R76, R78, R82). -/

namespace Sys2Proof.Machine

/-! ### A byte in memory after a store (R69, R76) -/

/-- A memory in canonical form after a write. -/
theorem Memory.read_write {m : Memory} (h : m.wf = true) (a : Nat) (b : Byte) (x : Nat) :
    (Memory.write m a b).read x = if x = a then b else m.read x := by
  split_ifs with hx
  · rw [hx, Memory.read_write_self m a b ((Memory.wf_iff m).mp h).1]
  · exact Memory.read_write_of_ne m b hx

/-- A completed store is what its byte reads as (R69). -/
theorem State.read_storeByte {s : State} {g : Agent} (hw : s.mem.wf = true) (hg : s.holdsStore g = false) (a : Word)
    (b : Byte) (x : Nat) : (s.storeByte g a b).mem.read x = if x = a.toNat then b else s.mem.read x := by
  rw [State.storeByte_completes a b hg]
  exact Memory.read_write hw a.toNat b x

/-- Making a byte visible leaves what it settles to. -/
theorem State.read_makeVisible {s : State} (hw : s.mem.wf = true) (a : Word) (x : Nat) :
    (s.makeVisible a).mem.read x = if x = a.toNat then s.settledByte a.toNat s.draws else s.mem.read x :=
  Memory.read_write hw a.toNat _ x

/-- With nothing held the byte in memory stays. -/
theorem State.settledByte_of_not_held {s : State} {a : Nat} (h : s.heldAt a = []) (d : Nat) :
    s.settledByte a d = s.mem.read a := by
  simp only [State.settledByte, h]

/-- The newest held store, with no store to its byte since, is what reaches memory. -/
theorem State.settledByte_of_not_overtaken {s : State} {a : Nat} {h : HeldStore} {rest : List HeldStore}
    (hh : s.heldAt a = h :: rest) (ho : h.overtaken = false) (d : Nat) : s.settledByte a d = h.value := by
  simp only [State.settledByte, hh, ho, Bool.false_eq_true, if_false]

/-- A store that the platform holds is the newest of those held to its byte (R76). -/
theorem State.heldAt_storeByte_self {s : State} {g : Agent} (a : Word) (b : Byte) (hg : s.holdsStore g = true) :
    (s.storeByte g a b).heldAt a.toNat = { addr := a.toNat, value := b, overtaken := false } :: s.heldAt a.toNat := by
  rw [State.storeByte_holds a b hg]
  simp [State.heldAt]

/-- Settles O44: a store completes or is held, and what is held settles to its value. -/
theorem storeThenReadReturnsByte : Obligations.StoreThenReadReturnsByte := by
  unfold Obligations.StoreThenReadReturnsByte
  intro s g a b hw x
  refine ⟨fun h => State.read_storeByte hw (State.holdsStore_eq_false.mpr h) a b x, fun hhost hc => ?_⟩
  have hg := State.holdsStore_eq_true.mpr ⟨hhost, hc⟩
  have hmem : (s.storeByte g a b).mem = s.mem := by rw [State.storeByte_holds a b hg]
  rw [State.read_makeVisible (State.storeByte_wf g a b hw),
    State.settledByte_of_not_overtaken (State.heldAt_storeByte_self a b hg) rfl, hmem]
  exact ⟨rfl, rfl⟩

/-! ### The values a byte may read as (R78, R82) -/

/-- A held store adds its value to those its byte may read as (R82). -/
theorem State.mem_otherValues_storeByte_held {s : State} {g : Agent} {a : Word} {b y : Byte}
    (hg : s.holdsStore g = true) :
    y ∈ (s.storeByte g a b).otherValues a.toNat ↔ y = b ∨ y ∈ s.otherValues a.toNat := by
  have hracing : (s.storeByte g a b).racing = s.racing := by rw [State.storeByte_holds a b hg]
  simp only [State.mem_otherValues, hracing, State.heldAt_storeByte_self a b hg, List.exists_mem_cons_iff, eq_comm]
  exact or_left_comm

/-- A completed store while idle adds no value to those its byte may read as besides the one in memory. -/
theorem State.otherValues_storeByte_idle {s : State} {g : Agent} (a : Word) (b : Byte) (hb : s.engine.busy = false)
    (hg : s.holdsStore g = false) : (s.storeByte g a b).otherValues a.toNat = s.otherValues a.toNat := by
  rw [State.storeByte_completes a b hg, State.otherValues_reachMemory, hb]
  rfl

/-- While a command is pending a store adds its value to those its byte may read as, and no more (R78). -/
theorem State.mem_readable_storeByte_busy {s : State} (g : Agent) {a : Word} {b y : Byte} (hw : s.mem.wf = true)
    (hb : s.engine.busy = true) :
    y ∈ (s.storeByte g a b).mem.read a.toNat :: (s.storeByte g a b).otherValues a.toNat ↔
      y = b ∨ y ∈ s.mem.read a.toNat :: s.otherValues a.toNat := by
  cases hg : s.holdsStore g with
  | true =>
    have hmem : (s.storeByte g a b).mem = s.mem := by rw [State.storeByte_holds a b hg]
    rw [List.mem_cons, State.mem_otherValues_storeByte_held hg, hmem, List.mem_cons]
    exact or_left_comm
  | false =>
    rw [State.read_storeByte hw hg, if_pos rfl, State.storeByte_completes a b hg, State.otherValues_reachMemory, hb]
    simp

/-- While a command is pending, making a byte visible keeps every value readable that was (R78). -/
theorem State.mem_otherValues_makeVisible {s : State} {a : Word} {y : Byte} (hb : s.engine.busy = true)
    (hy : y ∈ s.mem.read a.toNat :: s.otherValues a.toNat) : y ∈ (s.makeVisible a).otherValues a.toNat := by
  rw [State.mem_otherValues]
  refine .inl ?_
  simp only [State.makeVisible, hb, if_true]
  exact List.mem_append_left _ (List.mem_map_of_mem hy)

/-- Settles O45: a store of each kind while busy, and each way a command ends. -/
theorem racingByteReadsAValueItHeld : Obligations.RacingByteReadsAValueItHeld := by
  unfold Obligations.RacingByteReadsAValueItHeld
  refine ⟨State.byteAt_mem, State.byteAt_of_no_others, fun s g a b y => State.mem_readable_storeByte_busy g,
    fun s a y hb hy => List.mem_cons_of_mem _ (State.mem_otherValues_makeVisible hb hy),
    fun s g a b hb hg => State.otherValues_storeByte_idle a b hb (State.holdsStore_eq_false.mpr hg),
    fun i s t h => ?_⟩
  obtain ⟨-, hracing, -⟩ := exec_next_idle h
  exact hracing

/-- With no command pending and no race, a byte made visible may read as nothing but what is in memory (R76). -/
theorem State.otherValues_makeVisible_idle {s : State} (a : Word) (hb : s.engine.busy = false) (hr : s.racing = []) :
    (s.makeVisible a).otherValues a.toNat = [] := by
  rw [State.otherValues, State.heldAt_makeVisible_self]
  simp [State.makeVisible, hb, hr]

/-- Making a byte visible leaves the values another byte may read as. -/
theorem State.otherValues_makeVisible_of_ne (s : State) (a : Word) {x : Nat} (hx : x ≠ a.toNat) :
    (s.makeVisible a).otherValues x = s.otherValues x := by
  rw [State.otherValues, State.heldAt_makeVisible_of_ne s a hx, State.otherValues]
  cases hb : s.engine.busy <;> simp [State.makeVisible, hb, List.filter_map, Function.comp_def, hx.symm]

/-- Settles O46: a held store adds its value, and what is held settles to the newest or to what overtook it. -/
theorem storeNotYetVisibleReadsOldOrNew : Obligations.StoreNotYetVisibleReadsOldOrNew := by
  unfold Obligations.StoreNotYetVisibleReadsOldOrNew
  refine ⟨fun s a b x hc => ?_, fun s a d hb hr => ?_, fun s a hw => ?_, fun s a x hx => ?_⟩
  · have hg := State.holdsStore_eq_true.mpr ⟨rfl, hc⟩
    exact ⟨State.heldAt_storeByte_self a b hg, by rw [State.storeByte_holds a b hg],
      State.mem_otherValues_storeByte_held hg⟩
  · exact State.byteAt_of_no_others _ _ _ (State.otherValues_makeVisible_idle a hb hr)
  · rw [State.read_makeVisible hw, if_pos rfl]
    refine ⟨fun h => State.settledByte_of_not_held h _, fun h rest hh =>
      ⟨fun ho => State.settledByte_of_not_overtaken hh ho _, fun _ => ?_⟩⟩
    rcases s.settledByte_cases a.toNat s.draws with ⟨hnil, -⟩ | ⟨h', rest', hh', hv⟩
    · simp [hh] at hnil
    · obtain ⟨rfl, -⟩ := List.cons.inj (hh.symm.trans hh')
      exact hv.imp_right And.right
  · have hne : x.toNat ≠ a.toNat := fun h => hx (BitVec.eq_of_toNat_eq h)
    exact ⟨s.otherValues_makeVisible_of_ne a hne, Memory.read_write_of_ne s.mem _ hne⟩

/-- Settles O56: a completed store while idle leaves the held stores, which it overtakes, and no older value. -/
theorem completedStoreHidesOlderValues : Obligations.CompletedStoreHidesOlderValues := by
  unfold Obligations.CompletedStoreHidesOlderValues
  refine ⟨fun s g a b y hw hb hr hg => ?_, fun s g a b i d hw hb hg hh => ?_⟩
  · replace hg := State.holdsStore_eq_false.mpr hg
    constructor
    · rw [State.read_storeByte hw hg, if_pos rfl, State.otherValues_storeByte_idle a b hb hg, List.mem_cons,
        State.mem_otherValues]
      simp [hr]
    · intro h hh
      rw [State.storeByte_completes a b hg, State.heldAt_reachMemory, List.mem_map] at hh
      obtain ⟨h₀, hh₀, rfl⟩ := hh
      obtain ⟨-, haddr⟩ := State.mem_heldAt.mp hh₀
      simp [haddr]
  · replace hg := State.holdsStore_eq_false.mpr hg
    have alone : ((s.storeByte g a b).startCommand (encode i)).otherValues a.toNat = [] := by
      have held : ((s.storeByte g a b).startCommand (encode i)).heldAt a.toNat = [] := by
        show (s.storeByte g a b).heldAt a.toNat = []
        rw [State.storeByte_completes a b hg, State.heldAt_reachMemory, hh]
        rfl
      rw [State.otherValues, held]
      rfl
    rw [State.byteAt_of_no_others _ _ d alone, State.startCommand_mem, State.read_storeByte hw hg, if_pos rfl]

/-! ### What a step may do to memory (R68) -/

/-- Of all inputs only a store and making a byte visible touch memory. -/
theorem State.perform_mem {s t : State} {x : Input} (h : s.perform x = .next t) :
    t.mem = s.mem ∨ (∃ g a b, x = .store g a b ∧ t = s.storeByte g a b) ∨
      (∃ a, x = .makeVisible a ∧ t = s.makeVisible a) := by
  cases x with
  | hostRead width off => rcases State.hostRead_cases h with rfl | rfl <;> exact .inl rfl
  | hostWrite width off v =>
    obtain ⟨-, rfl | ⟨-, -, rfl⟩⟩ := State.hostWrite_cases h
    · exact .inl rfl
    · obtain ⟨-, hm, -⟩ := s.writeReg_written (Reg.ofOffset off) v
      exact .inl hm
  | wait =>
    obtain ⟨-, hm, -⟩ := State.poll_frame h
    exact .inl hm
  | store g a b =>
    cases h
    exact .inr (.inl ⟨g, a, b, rfl, rfl⟩)
  | makeVisible a =>
    cases h
    exact .inr (.inr ⟨a, rfl, rfl⟩)
  | engineRead => exact .inl (State.advanceRead_turn h).mem
  | engineCompress =>
    cases h
    exact .inl s.advanceCompress_turn.mem
  | engineFinish => exact .inl (State.finishCommand_turn h).mem
  | assertReset | releaseReset =>
    cases h
    exact .inl rfl

/-- A store that changes a byte completes, and its byte is the one changed. -/
theorem State.storeByte_changes {s : State} {g : Agent} {a : Word} {b : Byte} {x : Nat} (hw : s.mem.wf = true)
    (h : (s.storeByte g a b).mem.read x ≠ s.mem.read x) :
    a.toNat = x ∧ (s.storeByte g a b).mem.read x = b ∧ s.holdsStore g = false := by
  cases hg : s.holdsStore g with
  | true =>
    rw [State.storeByte_holds a b hg] at h
    exact absurd rfl h
  | false =>
    rw [State.read_storeByte hw hg] at h ⊢
    split_ifs at h ⊢ with hx
    · exact ⟨hx.symm, rfl, rfl⟩
    · exact absurd rfl h

/-- Making a byte visible changes no byte but that one, and to a store held to it. -/
theorem State.makeVisible_changes {s : State} {a : Word} {x : Nat} (hw : s.mem.wf = true)
    (h : (s.makeVisible a).mem.read x ≠ s.mem.read x) :
    a.toNat = x ∧ ∃ k ∈ s.heldAt x, (s.makeVisible a).mem.read x = k.value := by
  rw [State.read_makeVisible hw] at h ⊢
  split_ifs at h ⊢ with hx
  · subst hx
    rcases s.settledByte_cases a.toNat s.draws with ⟨-, hv⟩ | ⟨k, rest, hk, hv | ⟨-, hv⟩⟩
    · exact absurd hv h
    · exact ⟨rfl, k, by simp [hk], hv⟩
    · exact absurd hv h
  · exact absurd rfl h

/-- Settles O47: a turn of the engine leaves memory alone, and of the inputs only two touch it. -/
theorem onlyStoresChangeMemory : Obligations.OnlyStoresChangeMemory := by
  unfold Obligations.OnlyStoresChangeMemory
  intro s t a hw h hne
  cases hin : s.inputs with
  | nil =>
    rw [step_of_no_input hin] at h
    exact absurd (by rw [(State.finishCommand_turn h).mem]) hne
  | cons x rest =>
    rw [step_of_input hin] at h
    rcases State.perform_mem h with hm | ⟨g, k, b, rfl, rfl⟩ | ⟨k, rfl, rfl⟩
    · exact absurd (by rw [hm]) hne
    · obtain ⟨ha, hb, hg⟩ := State.storeByte_changes (s := { s with inputs := rest }) hw hne
      exact .inl ⟨g, k, b, rest, rfl, ha, hb, State.holdsStore_eq_false.mp hg⟩
    · obtain ⟨ha, y, hy, hv⟩ := State.makeVisible_changes (s := { s with inputs := rest }) hw hne
      exact .inr ⟨k, rest, y, rfl, ha, hy, hv⟩

end Sys2Proof.Machine
end

section
/-! How a step can stop, that the engine's turn ends the pending command, and the settled O53 and O54 (spec 20_memory.md
R72, R77; 60_exceptions.md R220; 70_reset_and_hazards.md R251, R262). -/

namespace Sys2Proof.Machine

/-! ### The reasons a step may be refused for (R72, R251) -/

/-- The outcome of a step from the state is no fault, and a refusal of it has one of the two reasons that are named. -/
def State.StopsByName (s : State) (o : Host.Outcome State Fault Refusal) : Prop :=
  (∀ f, o ≠ .fault f) ∧
    ∀ q, o = .refused q →
      (s.resetAsserted = true ∧ q = .accessDuringReset) ∨
      (s.resetAsserted = false ∧ s.engine.pending = some (encode .hash) ∧ s.touchesDevice = true ∧
        q = .sideEffectRegion)

theorem State.stopsByName_next (s t : State) : s.StopsByName (.next t) :=
  ⟨nofun, nofun⟩

/-- An access refused in reset (R251). -/
theorem State.stopsByName_reset {s : State} (hr : s.resetAsserted = true) :
    s.StopsByName (.refused .accessDuringReset) := by
  refine ⟨nofun, fun q h => ?_⟩
  cases h
  exact .inl ⟨hr, rfl⟩

/-- A HASH refused for a device (R72). -/
theorem State.stopsByName_device {s : State} (hr : s.resetAsserted = false)
    (hp : s.engine.pending = some (encode .hash)) (hd : s.touchesDevice = true) : s.StopsByName (.refused .sideEffectRegion) := by
  refine ⟨nofun, fun q h => ?_⟩
  cases h
  exact .inr ⟨hr, hp, hd, rfl⟩

/-- A host access is refused in reset and otherwise answers a next state. -/
theorem State.stopsByName_access (s t u : State) (legal : Bool) :
    s.StopsByName (if s.resetAsserted then .refused .accessDuringReset else if legal then .next t else .next u) := by
  split_ifs with hr
  · exact State.stopsByName_reset hr
  all_goals exact s.stopsByName_next _

theorem State.advanceRead_stopsByName (s : State) : s.StopsByName s.advanceRead := by
  unfold State.advanceRead
  split_ifs with hrun hd hl
  · exact s.stopsByName_next _
  · obtain ⟨hr, hp, -⟩ := s.hashRunning_iff.mp (by simpa using hrun)
    exact State.stopsByName_device hr hp hd
  · dsimp only
    split_ifs <;> exact s.stopsByName_next _
  · exact s.stopsByName_next _

/-- The meaning of the pending command stops for HASH alone, and in one way (R72, R220). -/
theorem exec_stopsByName {s : State} {c : Word} {i : Instr} (hr : s.resetAsserted = false)
    (hp : s.engine.pending = some c) (hi : decode c = .ok i) : s.StopsByName (exec i s) := by
  obtain ⟨hfault, hrefused⟩ := exec_stops (i := i) (s := s)
  refine ⟨hfault, fun q h => ?_⟩
  obtain ⟨rfl, hd, hq⟩ := hrefused q h
  exact .inr ⟨hr, encode_of_decode hi ▸ hp, hd, hq⟩

/-- A pending word that is legal decodes (R222). -/
theorem Engine.PendingLegal.exists_decode {e : Engine} {c : Word} (h : e.PendingLegal) (hp : e.pending = some c) :
    ∃ i, decode c = .ok i :=
  decode_of_wellFormedWord (h.1 c hp)

/-- The engine's turn does nothing in reset, and on an idle engine. -/
theorem State.finishCommand_rest {s : State} (h : s.resetAsserted = true ∨ s.engine.pending = none) :
    s.finishCommand = .next s := by
  unfold State.finishCommand
  rcases h with h | h
  · rw [if_pos h]
  · rw [h, ite_self]

theorem State.finishCommand_stopsByName {s : State} (h : s.engine.PendingLegal) : s.StopsByName s.finishCommand := by
  cases hr : s.resetAsserted with
  | true =>
    rw [State.finishCommand_rest (.inl hr)]
    exact s.stopsByName_next s
  | false =>
    cases hp : s.engine.pending with
    | none =>
      rw [State.finishCommand_rest (.inr hp)]
      exact s.stopsByName_next s
    | some c =>
      obtain ⟨i, hi⟩ := h.exists_decode hp
      rw [State.finishCommand_eq_exec hr hp hi]
      exact exec_stopsByName hr hp hi

theorem State.perform_stopsByName {s : State} (h : s.engine.PendingLegal) (x : Input) :
    s.StopsByName (s.perform x) := by
  cases x with
  | hostRead | hostWrite | wait => exact s.stopsByName_access _ _ _
  | engineRead => exact s.advanceRead_stopsByName
  | engineFinish => exact State.finishCommand_stopsByName h
  | store | makeVisible | engineCompress | assertReset | releaseReset => exact s.stopsByName_next _

/-- Settles O53: a legal pending word is never the fault's, and each refusal has its reason. -/
theorem stepNeverFaults : Obligations.StepNeverFaults := by
  unfold Obligations.StepNeverFaults
  intro s hs
  cases hin : s.inputs with
  | nil =>
    rw [step_of_no_input hin]
    exact State.finishCommand_stopsByName hs.pending
  | cons x rest =>
    rw [step_of_input hin]
    exact State.perform_stopsByName (s := { s with inputs := rest }) hs.pending x

/-! ### The engine's turn ends the pending command (R77, R262) -/

/-- A command of an engine with no device under its HASH runs to its end. -/
theorem exec_next_of_no_device {s : State} {c : Word} {i : Instr} (hp : s.engine.pending = some c)
    (hi : decode c = .ok i) (hd : s.engine.pending = some (encode .hash) → s.touchesDevice = false) :
    ∃ t, exec i s = .next t := by
  obtain ⟨hfault, hrefused⟩ := exec_stops (i := i) (s := s)
  cases h : exec i s with
  | next t => exact ⟨t, rfl⟩
  | fault f => exact absurd h (hfault f)
  | refused q =>
    obtain ⟨rfl, htouch, -⟩ := hrefused q h
    have := hd (encode_of_decode hi ▸ hp)
    simp [this] at htouch

/-- The engine's turn, outside reset and with no device under a pending HASH, leaves the engine idle, and the inputs as
they were. -/
theorem State.finishCommand_idle {s : State} (h : s.engine.PendingLegal) (hr : s.resetAsserted = false)
    (hd : s.engine.pending = some (encode .hash) → s.touchesDevice = false) :
    ∃ t, s.finishCommand = .next t ∧ t.engine.pending = none ∧ t.inputs = s.inputs := by
  cases hp : s.engine.pending with
  | none => exact ⟨s, State.finishCommand_rest (.inr hp), hp, rfl⟩
  | some c =>
    obtain ⟨i, hi⟩ := h.exists_decode hp
    obtain ⟨t, ht⟩ := exec_next_of_no_device hp hi hd
    obtain ⟨hidle, -, hin⟩ := exec_next_idle ht
    exact ⟨t, by rw [State.finishCommand_eq_exec hr hp hi, ht], hidle, hin⟩

/-- Settles O54: with no input left the step is the engine's turn, and the next one rests. -/
theorem pendingCommandCompletes : Obligations.PendingCommandCompletes := by
  unfold Obligations.PendingCommandCompletes
  intro s hs hin hr hd
  obtain ⟨t, ht, hidle, hinputs⟩ := State.finishCommand_idle hs.pending hr hd
  have hnone : t.inputs = [] := hinputs.trans hin
  refine ⟨t, by rw [step_of_no_input hin, ht], ⟨hnone, Engine.busy_eq_false.mpr hidle⟩, ?_⟩
  rw [step_of_no_input hnone, State.finishCommand_rest (.inr hidle)]

end Sys2Proof.Machine
end

section
/-! The command words and the end of a command: which words decode, the one outcome of a command and what it leaves, the
polls of WAIT, and the settled O1, O2, O3, O29 and O55 (spec 30_encoding.md R90 to R96; 60_exceptions.md R223, R228 to
R231; 70_reset_and_hazards.md R262). -/

namespace Sys2Proof.Machine

/-! ### Command words (R90 to R95) -/

/-- The decoder and the encoder are inverse to each other. -/
theorem decode_eq_ok_iff (c : Word) (i : Instr) : decode c = .ok i ↔ c = encode i :=
  ⟨encode_of_decode, fun h => h ▸ decode_of_encode i⟩

/-- The command words are 1 to 7 (R92). -/
theorem exists_encode_iff (c : Word) : (∃ i, c = encode i) ↔ 1 ≤ c.toNat ∧ c.toNat ≤ 7 := by
  constructor
  · rintro ⟨i, rfl⟩
    cases i <;> decide
  · rintro ⟨h1, h7⟩
    have mapped : ∃ i, commandOf c.toNat = some i := by
      generalize c.toNat = n at h1 h7
      interval_cases n <;> exact ⟨_, rfl⟩
    obtain ⟨i, hi⟩ := mapped
    exact ⟨i, BitVec.eq_of_toNat_eq (commandOf_eq_some.mp hi)⟩

/-- The opcode table numbers the bits of a word as the word does. -/
theorem decodeTableWord_toNat (c : Word) : decodeTableWord 32 c.toNat = (decode c).toOption := by
  rw [decodeTableWord, Nat.mod_eq_of_lt c.isLt, if_pos c.isLt, BitVec.ofNat_toNat, BitVec.setWidth_eq]

/-- A host write of CTRL while busy sets OVR and does nothing else, whatever its word (R66). -/
theorem State.hostWrite_ctrl_busy {s : State} (v : Word) (hb : s.engine.busy = true) (hr : s.resetAsserted = false) :
    s.hostWrite 32 0x000 v = .next { s with engine := { s.engine with ovr := true } } := by
  rw [State.hostWrite_legal v hr (by decide), State.writeReg_busy v hb (by decide)]

/-- Settles O2: the decoder is the encoder read backwards, so any word but the seven is reported. -/
theorem decodeAcceptsExactlySevenWords : Obligations.DecodeAcceptsExactlySevenWords := by
  unfold Obligations.DecodeAcceptsExactlySevenWords
  refine ⟨decode_eq_ok_iff, exists_encode_iff, fun s c hs hc => ?_, fun s c hb hr => State.hostWrite_ctrl_busy c hb hr⟩
  rw [State.hostWrite_ctrl c hs, State.submit_other s hc]
  rfl

/-- Settles O1: the seven words are those of the encoder. -/
theorem sevenWordsDecode : Obligations.SevenWordsDecode := by
  unfold Obligations.SevenWordsDecode
  exact ⟨decode_of_encode .init, decode_of_encode .compress, decode_of_encode .hash, decode_of_encode .expand,
    decode_of_encode .loadr, decode_of_encode .round, decode_of_encode .fold⟩

/-- Settles O3: the encoder's word decodes, so it is well formed, and its number in the table decodes as it does. -/
theorem decodeOfEncode : Obligations.DecodeOfEncode := by
  unfold Obligations.DecodeOfEncode
  intro i _
  have hi := decode_of_encode i
  exact ⟨wellFormedWord_of_decode hi, hi, by rw [decodeTableWord_toNat, hi]; rfl⟩

/-! ### The end of a command (R228, R229, R231) -/

/-- Every error but ILLEGAL_CMD has a code of 2 to 5 (R221). -/
theorem ErrorCode.value_of_running {c : ErrorCode} (h : c ≠ .illegalCmd) : 2 ≤ c.value.toNat ∧ c.value.toNat ≤ 5 := by
  cases c with
  | illegalCmd => exact absurd rfl h
  | roundRange | sequence | addrRange | busError => decide

/-- A command ends with DONE and no error, or with ERR and one of the codes of a running command (R228, R229). -/
theorem exec_next_outcome {i : Instr} {s t : State} (hc : s.engine.StatusConsistent) (hb : s.engine.busy = true)
    (h : exec i s = .next t) :
    (t.engine.done = true ∧ t.engine.err = false ∧ t.engine.errCode = 0) ∨
    (t.engine.done = false ∧ t.engine.err = true ∧ 2 ≤ t.engine.errCode.toNat ∧ t.engine.errCode.toNat ≤ 5) := by
  obtain ⟨-, hbusy, hcode, -⟩ := hc
  obtain ⟨hdone, herr⟩ := hbusy hb
  rcases exec_next_cases h with ⟨got, f, rfl, hf, -⟩ | ⟨c, rfl, hcase⟩ | ⟨got, -, rfl⟩
  · exact .inl ⟨rfl, hf.control.err.trans herr, hf.control.errCode.trans (hcode herr)⟩
  · have hrunning : c ≠ .illegalCmd := by rcases hcase with rfl | rfl | rfl <;> decide
    exact .inr ⟨hdone, rfl, ErrorCode.value_of_running hrunning⟩
  · exact .inr ⟨hdone, rfl, ErrorCode.value_of_running (c := .busError) (by decide)⟩

/-- No command writes OVR, INTEN, MSG_ADDR or MSG_LEN (R94). -/
theorem exec_next_control {i : Instr} {s t : State} (h : exec i s = .next t) :
    t.engine.ovr = s.engine.ovr ∧ t.engine.doneIE = s.engine.doneIE ∧ t.engine.errIE = s.engine.errIE ∧
      t.engine.msgAddr = s.engine.msgAddr ∧ t.engine.msgLen = s.engine.msgLen := by
  rcases exec_next_cases h with ⟨got, f, rfl, hf, -⟩ | ⟨c, rfl, -⟩ | ⟨got, -, rfl⟩
  · have hf := hf.control
    exact ⟨hf.ovr, hf.doneIE, hf.errIE, hf.msgAddr, hf.msgLen⟩
  all_goals exact ⟨rfl, rfl, rfl, rfl, rfl⟩

/-- A command leaves memory, the platform, what happens next, the replies and the reset input. -/
theorem exec_next_surroundings {i : Instr} {s t : State} (h : exec i s = .next t) :
    t.mem = s.mem ∧ t.platform = s.platform ∧ t.held = s.held ∧ t.inputs = s.inputs ∧ t.replies = s.replies ∧
      t.resetAsserted = s.resetAsserted := by
  rcases exec_next_cases h with ⟨got, f, rfl, -, -⟩ | ⟨c, rfl, -⟩ | ⟨got, -, rfl⟩ <;>
    exact ⟨rfl, rfl, rfl, rfl, rfl, rfl⟩

/-- Settles O29: a command's outcome, and what it leaves of the engine and around it. -/
theorem commandEndsWithOneOutcome : Obligations.CommandEndsWithOneOutcome := by
  unfold Obligations.CommandEndsWithOneOutcome
  intro i s t hc hb h
  obtain ⟨hidle, -, -⟩ := exec_next_idle h
  obtain ⟨hovr, hdoneIE, herrIE, haddr, hlen⟩ := exec_next_control h
  obtain ⟨hmem, hsurroundings⟩ := exec_next_surroundings h
  have outcome : t.engine.done = !t.engine.err ∧ (t.engine.done = true → t.engine.errCode = 0) ∧
      (t.engine.err = true → 2 ≤ t.engine.errCode.toNat ∧ t.engine.errCode.toNat ≤ 5) := by
    rcases exec_next_outcome hc hb h with ⟨hdone, herr, hcode⟩ | ⟨hdone, herr, hcode⟩ <;> simp [hdone, herr, hcode]
  obtain ⟨hone, hcode0, hcode⟩ := outcome
  exact ⟨Engine.busy_eq_false.mpr hidle, hone, hcode0, hcode, hovr, hdoneIE, herrIE, haddr, hlen,
    fun a => congrArg (Memory.read · a) hmem, hsurroundings⟩

/-! ### WAIT (R96) -/

/-- A read of STATUS, as a read of offset 0x004 (R64, R98). -/
theorem State.readReg_status (s : State) :
    s.readReg 0x004 = { s with draws := s.draws + 1, replies := s.replies ++ [.data 0x004 (s.readValue .status)] } := by
  obtain ⟨hreg, -⟩ := Reg.ofOffset_of_offset (r := .status) rfl
  rw [State.readReg, hreg]

/-- WAIT on an idle engine is one read of STATUS. -/
theorem step_wait_idle {s : State} {rest : List Input} (hin : s.inputs = .wait :: rest)
    (hr : s.resetAsserted = false) (hb : s.engine.busy = false) :
    step s = .next { s with
      inputs := rest, draws := s.draws + 1, replies := s.replies ++ [.data 0x004 s.engine.statusWord] } := by
  rw [step_of_input hin, State.perform, State.poll, if_neg (by simp [hr]), if_neg (by simp [hb]), State.readReg_status,
    State.readValue_idle .status (by exact hb)]
  rfl

/-- WAIT on a busy engine reads STATUS, and the engine's turn and the next poll come next (R262). -/
theorem step_wait_busy {s : State} {rest : List Input} (hin : s.inputs = .wait :: rest)
    (hr : s.resetAsserted = false) (hb : s.engine.busy = true) :
    step s = .next { s with
      inputs := .engineFinish :: .wait :: rest
      draws := s.draws + 1
      replies := s.replies ++ [.data 0x004 (s.readValue .status)] } := by
  rw [step_of_input hin, State.perform, State.poll, if_neg (by simp [hr]), if_pos (by exact hb), State.readReg_status]
  rfl

/-- A read of STATUS while busy shows BUSY = 1 (R64). -/
theorem State.readValue_status_busy_bit {s : State} (hb : s.engine.busy = true) : (s.readValue .status)[0] = true := by
  obtain ⟨fbusy, -⟩ := s.engine.statusWith_fields (BitVec.ofNat 7 (Config.freeRound s.draws).val)
  rw [State.readValue_status_busy hb, fbusy, hb]

/-- The engine's turn on a running command, with no device under a HASH, ends it, and leaves the replies, the inputs and
the reset input (R262). -/
theorem step_engineFinish_ends {s : State} {rest : List Input} (hin : s.inputs = .engineFinish :: rest)
    (hl : s.engine.PendingLegal) (hr : s.resetAsserted = false) (hb : s.engine.busy = true)
    (hd : s.engine.pending = some (encode .hash) → s.touchesDevice = false) :
    ∃ t, step s = .next t ∧ t.engine.busy = false ∧ t.inputs = rest ∧ t.replies = s.replies ∧
      t.resetAsserted = false := by
  obtain ⟨c, hp⟩ := Option.isSome_iff_exists.mp hb
  obtain ⟨i, hi⟩ := hl.exists_decode hp
  obtain ⟨t, ht⟩ := exec_next_of_no_device (s := { s with inputs := rest }) hp hi hd
  obtain ⟨-, -, -, htin, hreplies, hreset⟩ := exec_next_surroundings ht
  have hstep : step s = .next t := by
    rw [step_of_input hin, ← ht]
    exact State.finishCommand_eq_exec hr hp hi
  obtain ⟨hidle, -, -⟩ := exec_next_idle ht
  exact ⟨t, hstep, Engine.busy_eq_false.mpr hidle, htin, hreplies, hreset.trans hr⟩

/-- A run of the machine goes on from the state that its first step answers. -/
theorem run_succ_of_step {s t : State} (k : Nat) (h : step s = .next t) :
    Host.Core.run Sys2Proof.core (k + 1) s = Host.Core.run Sys2Proof.core k t := by
  simp only [Host.Core.run, show Sys2Proof.core.step s = .next t from h]

/-- Settles O55: the engine's turn between the two polls of a busy engine leaves it idle, with the replies as they
were. -/
theorem waitEndsWithIdleEngine : Obligations.WaitEndsWithIdleEngine := by
  unfold Obligations.WaitEndsWithIdleEngine
  intro s rest hs hin hr
  refine ⟨step_wait_idle hin hr, fun hb hd => ?_⟩
  have first := step_wait_busy hin hr hb
  obtain ⟨t, second, hidle, htin, hreplies, hreset⟩ := step_engineFinish_ends (s := { s with
    inputs := .engineFinish :: .wait :: rest
    draws := s.draws + 1
    replies := s.replies ++ [.data 0x004 (s.readValue .status)] }) rfl hs.pending hr hb hd
  have third := step_wait_idle htin hreset hidle
  have run := (run_succ_of_step 2 first).trans ((run_succ_of_step 1 second).trans (run_succ_of_step 0 third))
  obtain ⟨fbusy, -⟩ := t.engine.statusWith_fields t.engine.j
  refine ⟨_, s.readValue .status, run, rfl, hidle, State.readValue_status_busy_bit hb, ?_, fbusy.trans hidle⟩
  rw [hreplies, List.append_assoc]
  rfl

end Sys2Proof.Machine
end

section
/-! Word arithmetic and byte packing: rotation by bits and by value, the byte order of BE32, bytes32 and BE64, and the
settled O4, O5, O6 and O7 (spec 40_word_arith.md R113 to R118). -/

namespace Sys2Proof.Machine

/-! ### Rotation (R113) -/

/-- Bit `i` of a rotated word is bit `(i - n) mod 32` of the word. -/
theorem rotl_getLsbD (x : Word) (n : Nat) {i : Nat} (hi : i < 32) :
    (rotl x n).getLsbD i = x.getLsbD ((i + 32 - n % 32) % 32) := by
  rw [rotl, BitVec.getLsbD_rotateLeft]
  by_cases hwrap : i < n % 32
  · rw [decide_eq_true hwrap, cond_true, show (i + 32 - n % 32) % 32 = 32 - n % 32 + i by omega]
  · rw [decide_eq_false hwrap, cond_false, decide_eq_true hi, Bool.true_and,
      show (i + 32 - n % 32) % 32 = i - n % 32 by omega]

/-- Rotation by a multiple of 32 moves no bit. -/
theorem rotl_of_mod_eq_zero (x : Word) {n : Nat} (hn : n % 32 = 0) : rotl x n = x := by
  refine BitVec.eq_of_getLsbD_eq fun i hi => ?_
  rw [rotl_getLsbD x n hi, hn, Nat.sub_zero, Nat.add_mod_right, Nat.mod_eq_of_lt hi]

/-- The word of all ones, rotated, is all ones. -/
theorem rotl_allOnes (n : Nat) : rotl (BitVec.allOnes 32) n = BitVec.allOnes 32 := by
  refine BitVec.eq_of_getLsbD_eq fun i hi => ?_
  rw [rotl_getLsbD _ n hi, BitVec.getLsbD_allOnes, BitVec.getLsbD_allOnes, decide_eq_true hi,
    decide_eq_true (Nat.mod_lt _ (by decide))]

/-- The value of a rotated word: the bits that move up, and below them the `n mod 32` bits that wrap around. -/
theorem rotl_toNat (x : Word) (n : Nat) :
    (rotl x n).toNat = (x.toNat * 2 ^ (n % 32)) % 2 ^ 32 + x.toNat / 2 ^ (32 - n % 32) := by
  have hsplit : 2 ^ 32 = 2 ^ (n % 32) * 2 ^ (32 - n % 32) := by rw [← Nat.pow_add]; congr 1; omega
  have hwrap : x.toNat / 2 ^ (32 - n % 32) < 2 ^ (n % 32) :=
    Nat.div_lt_of_lt_mul (by rw [Nat.mul_comm, ← hsplit]; exact x.isLt)
  have hhigh : (x.toNat * 2 ^ (n % 32)) % 2 ^ 32 = 2 ^ (n % 32) * (x.toNat % 2 ^ (32 - n % 32)) := by
    rw [hsplit, Nat.mul_comm, Nat.mul_mod_mul_left]
  rw [rotl, BitVec.toNat_rotateLeft, Nat.shiftLeft_eq, Nat.shiftRight_eq_div_pow, hhigh,
    Nat.two_pow_add_eq_or_of_lt hwrap]

/-- Settles O4: the bits and the value of a rotated word, and the corner cases. -/
theorem rotlIsCircular : Obligations.RotlIsCircular := by
  unfold Obligations.RotlIsCircular
  exact ⟨fun x n hn => rotl_of_mod_eq_zero x hn, fun x n _ => rotl_toNat x n, fun x n i hi => rotl_getLsbD x n hi,
    by decide, by decide, by decide, rotl_allOnes⟩

/-! ### BE32 and bytes32 (R115, R116) -/

/-- A byte appended to a bit vector is its last digit to base 256. -/
theorem toNat_append_byte {w : Nat} (x : BitVec w) (b : Byte) : (x ++ b).toNat = x.toNat * 2 ^ 8 + b.toNat := by
  rw [BitVec.toNat_append, ← Nat.shiftLeft_add_eq_or_of_lt b.isLt, Nat.shiftLeft_eq]

/-- BE32 is the sum of its bytes with their weights. -/
theorem be32_toNat (b0 b1 b2 b3 : Byte) :
    (be32 b0 b1 b2 b3).toNat = b0.toNat * 2 ^ 24 + b1.toNat * 2 ^ 16 + b2.toNat * 2 ^ 8 + b3.toNat := by
  have hdigits : (be32 b0 b1 b2 b3).toNat =
      ((b0.toNat * 2 ^ 8 + b1.toNat) * 2 ^ 8 + b2.toNat) * 2 ^ 8 + b3.toNat := by
    simp only [be32, toNat_append_byte]
  exact hdigits.trans (by ring)

/-- Each field of BE32 is its byte. -/
theorem bytes32_be32 (b0 b1 b2 b3 : Byte) : bytes32 (be32 b0 b1 b2 b3) = [b0, b1, b2, b3] := by
  have hfield (start : Nat) {b : Byte} (hb : (be32 b0 b1 b2 b3).toNat / 2 ^ start % 2 ^ 8 = b.toNat) :
      (be32 b0 b1 b2 b3).extractLsb' start 8 = b :=
    BitVec.eq_of_toNat_eq (by rw [BitVec.extractLsb'_toNat, Nat.shiftRight_eq_div_pow, hb])
  rw [be32_toNat] at hfield
  rw [bytes32, hfield 24 (b := b0) (by omega), hfield 16 (b := b1) (by omega), hfield 8 (b := b2) (by omega),
    hfield 0 (b := b3) (by omega)]

/-- The four fields of a word, joined again, are the word. -/
theorem be32_fields (w : Word) :
    be32 (w.extractLsb' 24 8) (w.extractLsb' 16 8) (w.extractLsb' 8 8) (w.extractLsb' 0 8) = w := by
  rw [be32, BitVec.extractLsb'_append_extractLsb'_eq_extractLsb' (rfl : 24 = 16 + 8),
    BitVec.extractLsb'_append_extractLsb'_eq_extractLsb' (rfl : 16 = 8 + 8),
    BitVec.extractLsb'_append_extractLsb'_eq_extractLsb' (rfl : 8 = 0 + 8)]
  exact BitVec.extractLsb'_eq_self

/-- Settles O5: BE32 by its value, bytes32 by its definition, and both round trips. -/
theorem be32AndBytes32AreInverse : Obligations.Be32AndBytes32AreInverse := by
  unfold Obligations.Be32AndBytes32AreInverse
  exact ⟨be32_toNat, fun _ => rfl, bytes32_be32, fun w => ⟨_, _, _, _, rfl, be32_fields w⟩⟩

/-! ### BE64 (R118) -/

theorem be64_getElem? (x : Nat) {i : Nat} (hi : i < 8) :
    (be64 x)[i]? = some (BitVec.ofNat 8 (x / 2 ^ (56 - 8 * i))) := by
  simp [be64, hi]

/-- The first `n` bytes of BE64, read most significant first, are what is above the last `64 - 8n` bits. -/
theorem be64_foldl_take {x : Nat} (hx : x < 2 ^ 64) {n : Nat} (hn : n ≤ 8) :
    ((be64 x).take n).foldl (fun acc b => 256 * acc + b.toNat) 0 = x / 2 ^ (64 - 8 * n) := by
  induction n with
  | zero => exact (Nat.div_eq_of_lt hx).symm
  | succ n ih =>
    have hstep : x / 2 ^ (64 - 8 * n) = x / 2 ^ (56 - 8 * n) / 256 := by
      rw [Nat.div_div_eq_div_mul, show 64 - 8 * n = 56 - 8 * n + 8 by omega, Nat.pow_add]
    rw [List.take_add_one, be64_getElem? x hn, List.foldl_append, ih (by omega), hstep,
      show 64 - 8 * (n + 1) = 56 - 8 * n by omega]
    exact Nat.div_add_mod (x / 2 ^ (56 - 8 * n)) 256

/-- Settles O6: the bytes one by one, and all eight of them read back. -/
theorem be64IsBigEndian : Obligations.Be64IsBigEndian := by
  unfold Obligations.Be64IsBigEndian
  intro x hx
  refine ⟨be64_length x, fun i hi => ?_, ?_⟩
  · rw [be64_getElem? x hi, Option.map_some, BitVec.toNat_ofNat]
  · have hall := be64_foldl_take hx (Nat.le_refl 8)
    rw [List.take_of_length_le (be64_length x).le] at hall
    exact hall.trans (Nat.div_one x)

/-! ### Words as bytes and bytes as words (R117) -/

/-- Byte `q` of a list of words is field `q mod 4`, most significant first, of word `q div 4`. -/
theorem flatMap_bytes32_getElem? (l : List Word) (q : Nat) :
    (l.flatMap bytes32)[q]? = l[q / 4]?.map fun w => w.extractLsb' (24 - 8 * (q % 4)) 8 := by
  induction l generalizing q with
  | nil => rfl
  | cons w l ih =>
    rw [List.flatMap_cons]
    by_cases hq : q < 4
    · interval_cases q <;> rfl
    · obtain ⟨r, rfl⟩ := Nat.exists_eq_add_of_le (Nat.le_of_not_lt hq)
      rw [List.getElem?_append_right (by simp [bytes32]), show 4 + r - (bytes32 w).length = r by simp [bytes32], ih,
        show (4 + r) / 4 = r / 4 + 1 by omega, Nat.add_mod_left, List.getElem?_cons_succ]

/-- An 8-word value is 32 bytes. -/
@[simp] theorem digestBytes_length (v : Vector Word 8) : (digestBytes v).length = 32 := by
  simp [digestBytes, bytes32, List.length_flatMap]

/-- Word `i` of the first block of a padded message is BE32 of its four bytes. -/
theorem blockWords_zero_getElem (b : Vector Byte 64) (i : Fin 16) :
    (blockWords b.toList 0)[i] = be32 b[4 * i.val] b[4 * i.val + 1] b[4 * i.val + 2] b[4 * i.val + 3] := by
  have hbyte (k : Nat) (hk : k < 64) : b.toList.getD k 0 = b[k] := by
    rw [List.getD_eq_getElem _ _ (by simpa using hk), Vector.getElem_toList]
  simp (disch := omega) only [blockWords, Fin.getElem_fin, Vector.getElem_ofFn, Nat.mul_zero, Nat.zero_add, hbyte]

/-- Settles O7: an 8-word value byte by byte, and a block word by word. -/
theorem digestAndBlockByteOrder : Obligations.DigestAndBlockByteOrder := by
  unfold Obligations.DigestAndBlockByteOrder
  refine ⟨fun v => ⟨digestBytes_length v, fun q => ?_⟩, blockWords_zero_getElem⟩
  have hword : v.toList[q.val / 4]? = some v[q.val / 4] := by
    rw [List.getElem?_eq_getElem (by simp; omega), Vector.getElem_toList]
  rw [digestBytes, flatMap_bytes32_getElem?, hword, Option.map_some]

end Sys2Proof.Machine
end

section
/-! The padder: the zero fill's length, the length of the padded message, its four parts read back from it, and the
settled O8, O9 and O10 (spec 41_padder.md R131, R132 and R137). -/

namespace Sys2Proof.Machine

/-! ### The zero fill (R131) -/

/-- `fillCount` is R131's `(55 − n) mod 64`, with the non-negative remainder. -/
theorem fillCount_eq_emod (n : Nat) : (fillCount n : Int) = (55 - (n : Int)) % 64 := by
  unfold fillCount; omega

theorem fillCount_le (n : Nat) : fillCount n ≤ 63 := by
  unfold fillCount; omega

theorem fillCount_eq_zero_iff (n : Nat) : fillCount n = 0 ↔ n % 64 = 55 := by
  unfold fillCount; omega

theorem fillCount_eq_max_iff (n : Nat) : fillCount n = 63 ↔ n % 64 = 56 := by
  unfold fillCount; omega

/-- The empty fill in bit terms: the marker alone brings the bit length to 448 modulo 512. -/
theorem mod_eq_55_iff_bitLength (n : Nat) : n % 64 = 55 ↔ (8 * n + 8) % 512 = 448 := by omega

/-- Settles O8: the fill of the closed form `pad_eq` is R131's. -/
theorem padFillsToBlockBoundary : Obligations.PadFillsToBlockBoundary := by
  unfold Obligations.PadFillsToBlockBoundary
  exact fun m => ⟨fillCount m.length, fillCount_eq_emod _, fillCount_le _, pad_eq m, fillCount_eq_zero_iff _,
    mod_eq_55_iff_bitLength _, fillCount_eq_max_iff _⟩

/-! ### The padded length (R132) -/

/-- The block count as `ceil((n + 9) / 64)`. -/
theorem blockCount_eq_ceil (n : Nat) : blockCount n = (n + 9 + 63) / 64 := by
  unfold blockCount; omega

/-- The length field begins in the last block, which holds the marker exactly when `n mod 64 ≤ 55`. -/
theorem marker_block_eq_lengthField_block_iff (m : List Byte) :
    m.length / 64 = ((pad m).length - 8) / 64 ↔ m.length % 64 ≤ 55 := by
  have hlast : ((pad m).length - 8) / 64 = (m.length + 8) / 64 := by
    rw [pad_length, blockCount]; omega
  rw [hlast]
  omega

/-- Settles O9: `pad_length`, both forms of the block count, and the six examples of R132. -/
theorem padLengthIsBlockCount : Obligations.PadLengthIsBlockCount := by
  unfold Obligations.PadLengthIsBlockCount
  exact ⟨fun m => ⟨pad_length m, rfl, blockCount_eq_ceil _, marker_block_eq_lengthField_block_iff m⟩,
    rfl, rfl, rfl, rfl, rfl, rfl⟩

/-! ### The parts of the padded message (R137) -/

/-- The appended bytes: the marker, the length field and the fill between them. -/
theorem pad_length_eq_add (m : List Byte) : (pad m).length = m.length + (9 + fillCount m.length) := by
  rw [pad_eq]
  simp only [List.length_append, List.length_replicate, List.length_singleton, be64_length]
  omega

theorem pad_take_message (m : List Byte) : (pad m).take m.length = m := by
  rw [pad_eq, List.append_assoc, List.append_assoc, List.take_left]

/-- What follows the message: byte `m.length + i` of the padding is byte `i` of marker, fill and length field. -/
theorem pad_getElem?_length_add (m : List Byte) (i : Nat) :
    (pad m)[m.length + i]? = (0x80 :: (List.replicate (fillCount m.length) 0x00 ++ be64 (8 * m.length)))[i]? := by
  rw [pad_eq, List.append_assoc, List.append_assoc, List.getElem?_append_right (Nat.le_add_right _ _),
    Nat.add_sub_cancel_left, List.singleton_append]

theorem pad_getElem?_marker (m : List Byte) : (pad m)[m.length]? = some 0x80 :=
  pad_getElem?_length_add m 0

theorem pad_getElem?_fill (m : List Byte) {i : Nat} (hi : i < fillCount m.length) :
    (pad m)[m.length + 1 + i]? = some 0x00 := by
  rw [Nat.add_assoc, Nat.add_comm 1 i, pad_getElem?_length_add, List.getElem?_cons_succ,
    List.getElem?_append_left (by rwa [List.length_replicate]), List.getElem?_replicate_of_lt hi]

/-- The last 8 bytes are the length field. -/
theorem pad_drop_lengthField (m : List Byte) : (pad m).drop ((pad m).length - 8) = be64 (8 * m.length) := by
  rw [pad_eq, List.length_append, be64_length, Nat.add_sub_cancel, List.drop_left]

/-- Settles O10: the four parts of `pad_eq` in turn, and the two lengths. -/
theorem padProperties : Obligations.PadProperties := by
  unfold Obligations.PadProperties
  intro m
  have happended : (pad m).length - m.length = 9 + fillCount m.length := by
    rw [pad_length_eq_add, Nat.add_sub_cancel_left]
  have hfill := fillCount_le m.length
  refine ⟨?_, pad_take_message m, pad_getElem?_marker m, fun _ => pad_getElem?_fill m, pad_drop_lengthField m, ?_, ?_⟩
  · rw [pad_length, Nat.mul_mod_right]
  · rw [happended]; omega
  · rw [happended]; omega

end Sys2Proof.Machine
end

section
/-! The expander and the round functions: the recurrence over the final words, linearity over GF(2), the command EXPAND,
FF and GG on either side of round 16, and the settled O11, O12 and O15 (spec 42_expander.md R140 to R142;
43_compression.md R150 to R152). -/

namespace Sys2Proof.Machine

/-! ### The recurrence (R141) -/

/-- The loop of R141 reads only words that are already final, so the recurrence holds among the final words. -/
theorem expandWords_recurrence (b : Vector Word 16) {i : Nat} (h16 : 16 ≤ i) (h68 : i < 68) :
    (expandWords b)[i] =
      p1 ((expandWords b)[i - 16] ^^^ (expandWords b)[i - 9] ^^^ rotl (expandWords b)[i - 3] 15) ^^^
        rotl (expandWords b)[i - 13] 7 ^^^ (expandWords b)[i - 6] := by
  have hfinal {k : Nat} (hk : k < i) : (expandTo (i - 16) b)[k]! = (expandWords b)[k] :=
    expandTo_getElem!_eq b (by omega) (by omega) (by omega)
  rw [expandWords_getElem_next b h16 h68, nextWord, hfinal (by omega), hfinal (by omega), hfinal (by omega),
    hfinal (by omega), hfinal (by omega)]

/-! ### Linearity (R141) -/

/-- Word-wise exclusive or of two blocks (R141). -/
def xorBlocks (b b' : Vector Word 16) : Vector Word 16 :=
  Vector.ofFn fun k => b[k] ^^^ b'[k]

@[simp] theorem xorBlocks_getElem (b b' : Vector Word 16) {i : Nat} (hi : i < 16) :
    (xorBlocks b b')[i] = b[i] ^^^ b'[i] := by
  simp [xorBlocks]

theorem xorBlocks_zero : xorBlocks (Vector.replicate 16 0) (Vector.replicate 16 0) = Vector.replicate 16 0 := by
  refine Vector.ext fun i hi => ?_
  simp

/-- The right-hand side of the recurrence is linear in the five words it reads. -/
theorem recurrence_xor (w16 w9 w3 w13 w6 x16 x9 x3 x13 x6 : Word) :
    p1 ((w16 ^^^ x16) ^^^ (w9 ^^^ x9) ^^^ rotl (w3 ^^^ x3) 15) ^^^ rotl (w13 ^^^ x13) 7 ^^^ (w6 ^^^ x6) =
      (p1 (w16 ^^^ w9 ^^^ rotl w3 15) ^^^ rotl w13 7 ^^^ w6) ^^^
        (p1 (x16 ^^^ x9 ^^^ rotl x3 15) ^^^ rotl x13 7 ^^^ x6) := by
  simp only [rotl_xor, p1_xor]
  ac_rfl

theorem xor_xor_xor_comm (x x' y y' : Word) : (x ^^^ x') ^^^ (y ^^^ y') = (x ^^^ y) ^^^ (x' ^^^ y') := by
  ac_rfl

/-- By strong induction: a block word is linear in the block, and a later word in words before it. -/
theorem expandWords_xorBlocks (b b' : Vector Word 16) {i : Nat} (h68 : i < 68) :
    (expandWords (xorBlocks b b'))[i] = (expandWords b)[i] ^^^ (expandWords b')[i] := by
  induction i using Nat.strong_induction_on with
  | _ i ih =>
    by_cases hblock : i < 16
    · simp only [expandWords_getElem_block _ hblock, xorBlocks_getElem]
    · have h16 : 16 ≤ i := Nat.le_of_not_lt hblock
      rw [expandWords_recurrence b h16 h68, expandWords_recurrence b' h16 h68, expandWords_recurrence _ h16 h68,
        ih (i - 16) (by omega), ih (i - 9) (by omega), ih (i - 3) (by omega), ih (i - 13) (by omega),
        ih (i - 6) (by omega), recurrence_xor]

theorem primeWords_expandWords_xorBlocks (b b' : Vector Word 16) {j : Nat} (hj : j < 64) :
    (primeWords (expandWords (xorBlocks b b')))[j] =
      (primeWords (expandWords b))[j] ^^^ (primeWords (expandWords b'))[j] := by
  rw [primeWords_getElem, primeWords_getElem, primeWords_getElem, expandWords_xorBlocks, expandWords_xorBlocks,
    xor_xor_xor_comm]

/-- The zero block is its own exclusive or with itself, so by linearity each word of its expansion is too. -/
@[simp] theorem expandWords_zero : expandWords (Vector.replicate 16 0) = Vector.replicate 68 0 := by
  refine Vector.ext fun i hi => ?_
  have hself := expandWords_xorBlocks (Vector.replicate 16 0) (Vector.replicate 16 0) hi
  rw [xorBlocks_zero, BitVec.xor_self] at hself
  exact hself.trans (Vector.getElem_replicate hi).symm

@[simp] theorem primeWords_zero : primeWords (Vector.replicate 68 0) = Vector.replicate 64 0 := by
  refine Vector.ext fun j hj => ?_
  simp

/-- Settles O11: block words, the recurrence among final words, and linearity, of which the zero block is a case. -/
theorem expandSatisfiesRecurrence : Obligations.ExpandSatisfiesRecurrence := by
  unfold Obligations.ExpandSatisfiesRecurrence
  refine ⟨fun b i => expandWords_getElem_block b i.isLt, fun b i h16 h68 => expandWords_recurrence b h16 h68,
    fun b j => primeWords_getElem _ j.isLt, fun b b' i => expandWords_xorBlocks b b' i.isLt,
    fun b b' j => primeWords_expandWords_xorBlocks b b' j.isLt, expandWords_zero, ?_⟩
  rw [expandWords_zero, primeWords_zero]

/-! ### The command EXPAND (R142) -/

/-- EXPAND always completes, with the expansion of BLK in W and WP; every other field is as before. -/
theorem exec_expand_eq (s : State) : exec .expand s = .next { s with
    engine := { s.engine with
      w := expandWords s.engine.blk, wp := primeWords (expandWords s.engine.blk)
      done := true, pending := none, progress := HashProgress.start }
    racing := [] } := by
  simp only [exec_expand, execExpand, State.completeWith, Engine.complete, Engine.expandBlock]

/-- R142's example: words of the expansion of the padded "abc" block. -/
theorem expandWords_paddedAbc :
    let w := expandWords #v[0x61626380, 0, 0, 0, 0, 0, 0, 0, 0, 0, 0, 0, 0, 0, 0, 0x00000018]
    w[16] = 0x9092E200 ∧ w[67] = 0xB99C0545 ∧ (primeWords w)[15] = 0x719C70F5 := by
  decide +kernel

/-- Settles O15: EXPAND writes the expansion of BLK, known for the zero block and for the padded "abc". -/
theorem expandFillsWAndWP : Obligations.ExpandFillsWAndWP := by
  unfold Obligations.ExpandFillsWAndWP
  refine ⟨encode_expand, exec_expand_eq, fun s hblk => ⟨_, exec_expand_eq s, ?_, ?_⟩,
    fun s hblk => ⟨_, exec_expand_eq s, ?_⟩⟩
  · simp only [hblk, expandWords_zero]
  · simp only [hblk, expandWords_zero, primeWords_zero]
  · simpa only [hblk] using expandWords_paddedAbc

/-! ### The round functions (R150 to R152) -/

theorem ff_of_lt (x y z : Word) {j : Nat} (hj : j < 16) : ff x y z j = x ^^^ y ^^^ z := if_pos hj

theorem gg_of_lt (x y z : Word) {j : Nat} (hj : j < 16) : gg x y z j = x ^^^ y ^^^ z := if_pos hj

/-- From round 16 on FF is the bitwise majority (R151). -/
theorem ff_of_le (x y z : Word) {j : Nat} (hj : 16 ≤ j) : ff x y z j = (x &&& y) ||| (x &&& z) ||| (y &&& z) :=
  if_neg (Nat.not_lt.mpr hj)

/-- From round 16 on GG is the bitwise choice (R152). -/
theorem gg_of_le (x y z : Word) {j : Nat} (hj : 16 ≤ j) : gg x y z j = (x &&& y) ||| (~~~x &&& z) :=
  if_neg (Nat.not_lt.mpr hj)

/-- Settles O12: P1 and P0 are their formulas by definition, FF and GG change at round 16, and the examples compute. -/
theorem roundFunctionsMatchFormulas : Obligations.RoundFunctionsMatchFormulas := by
  unfold Obligations.RoundFunctionsMatchFormulas
  exact ⟨fun _ => rfl, by decide, by decide, by decide, by decide, by decide,
    fun _ => rfl, by decide, by decide, by decide, by decide, by decide,
    fun x y z _ hj => ⟨ff_of_lt x y z hj, gg_of_lt x y z hj⟩,
    fun x y z _ hj _ => ⟨ff_of_le x y z hj, gg_of_le x y z hj⟩,
    by decide, by decide, by decide, by decide⟩

end Sys2Proof.Machine
end

section
/-! The compression function and its commands: LOADR, ROUND, FOLD and COMPRESS each as one equation of `exec`, the values
of CF, the step sequence of R160, and the settled O14, O16, O17, O18 and O19 (spec 43_compression.md R154 to R160). -/

namespace Sys2Proof.Machine

/-! ### Values of the compression function (R155, R157, R159) -/

/-- The loop of CF over the indices of its 64 rounds, each of which reads a word of W and of WP. -/
theorem roundsTo_eq_foldl_finRange (s : Vector Word 8) (w : Vector Word 68) (wp : Vector Word 64) :
    roundsTo 64 s w wp =
      (List.finRange 64).foldl (fun r (j : Fin 64) => roundFn r j.val w[j.val] wp[j.val]) s := by
  have inRange (r : Vector Word 8) (j : Fin 64) : roundFn r j.val w[j.val]! wp[j.val]! =
      roundFn r j.val w[j.val] wp[j.val] := by
    rw [getElem!_pos w j.val (by omega), getElem!_pos wp j.val j.isLt]
  rw [roundsTo, ← List.map_coe_finRange_eq_range, List.foldl_map]
  simp only [inRange]

/-- 95 section 2.5: the zero block from V = 0. -/
theorem cf_zero_zero : cf (Vector.replicate 8 0) (Vector.replicate 16 0) =
    #v[0x2762550F, 0x18134933, 0xBA35CE4E, 0x0A757E65, 0x8C0E7205, 0xFE9E4FF6, 0x5AC5C88B, 0xA3649AC2] := by
  decide +kernel

/-- 95 section 2.5: the zero block from V = IV. -/
theorem cf_iv_zero : cf iv (Vector.replicate 16 0) =
    #v[0xA1203A40, 0x4A5566CD, 0x536FCEE8, 0x20DF7E13, 0x35C58F56, 0xB7C4C62E, 0x813C32CC, 0x47BF9B6C] := by
  decide +kernel

/-- 95 section 2.5: the padded "abc" block from V = IV. -/
theorem cf_iv_paddedAbc : cf iv #v[0x61626380, 0, 0, 0, 0, 0, 0, 0, 0, 0, 0, 0, 0, 0, 0, 0x00000018] =
    #v[0x66C7F0F4, 0x62EEEDD9, 0xD1F2D46B, 0xDC10E4E2, 0x4167C487, 0x5CF2F7A2, 0x297DA02B, 0x8F4BA8E0] := by
  decide +kernel

/-- 95 section 2.4: round 0 of the padded "abc" block, whose W[0] and WP[0] = W[0] ⊕ W[4] are its first word. -/
theorem roundFn_iv_paddedAbc :
    let w := expandWords #v[0x61626380, 0, 0, 0, 0, 0, 0, 0, 0, 0, 0, 0, 0, 0, 0, 0x00000018]
    roundFn iv 0 w[0] (primeWords w)[0] =
      #v[0xB9EDC12B, 0x7380166F, 0x29657292, 0x172442D7, 0xB2AD29F4, 0xA96F30BC, 0xC550B189, 0xE38DEE4D] := by
  intro w
  have word {i : Nat} (hi : i < 16) : w[i] = _ := expandWords_getElem_block _ hi
  rw [primeWords_getElem, word (by decide), word (by decide)]
  decide

/-! ### LOADR (R156) -/

/-- LOADR always completes. -/
theorem exec_loadr_eq (s : State) : exec .loadr s = .next (s.completeWith s.engine.loadRound) := rfl

/-- Settles O14: R is V word by word, and from reset the started LOADR computes. -/
theorem loadrCopiesVAndClearsJ : Obligations.LoadrCopiesVAndClearsJ := by
  unfold Obligations.LoadrCopiesVAndClearsJ
  exact ⟨encode_loadr, fun s => ⟨_, exec_loadr_eq s, fun i => rfl, rfl, rfl⟩, ⟨_, rfl, rfl, rfl, by decide⟩⟩

/-! ### ROUND (R157) -/

/-- ROUND completes in rounds 0 to 63. -/
theorem exec_round_of_lt {s : State} (h : s.engine.j.toNat < 64) :
    exec .round s = .next (s.completeWith s.engine.stepRound) := by
  rw [exec_round, execRound, if_pos h]

/-- ROUND after the last round ends with ROUND_RANGE (R224). -/
theorem exec_round_of_last {s : State} (h : s.engine.j = 64) : exec .round s = .next (s.failWith .roundRange) := by
  rw [exec_round, execRound, if_neg (by rw [h]; decide)]

/-- The words that round J reads. -/
theorem Engine.stepRound_r_eq (e : Engine) (h : e.j.toNat < 64) :
    e.stepRound.r = roundFn e.r e.j.toNat e.w[e.j.toNat] e.wp[e.j.toNat] := by
  rw [Engine.stepRound_r, getElem!_pos e.w _ (by omega), getElem!_pos e.wp _ h]

theorem Engine.stepRound_j_toNat (e : Engine) (h : e.j.toNat < 64) : e.stepRound.j.toNat = e.j.toNat + 1 := by
  rw [Engine.stepRound_j, BitVec.toNat_add, Nat.mod_eq_of_lt]
  · rfl
  · exact Nat.lt_of_le_of_lt (Nat.succ_le_of_lt h) (by decide)

/-- Settles O16: ROUND is one application of R154's formulas, or ROUND_RANGE. -/
theorem roundStepsThePipeline : Obligations.RoundStepsThePipeline := by
  unfold Obligations.RoundStepsThePipeline
  refine ⟨encode_round, fun s h => ⟨_, exec_round_of_lt h, s.engine.stepRound_r_eq h, s.engine.stepRound_j_toNat h, rfl⟩,
    fun s h => exec_round_of_last h, fun s b hb hw hwp hr hj => ?_⟩
  have hlt : s.engine.j.toNat < 64 := by rw [hj]; decide
  refine ⟨_, exec_round_of_lt hlt, ?_, ?_⟩
  · rw [State.completeWith_engine, Engine.complete_r, s.engine.stepRound_r_eq hlt]
    simp only [hj, hr, hw, hwp, hb]
    exact roundFn_iv_paddedAbc
  · rw [State.completeWith_engine, Engine.complete_j, Engine.stepRound_j, hj]
    rfl

/-! ### FOLD (R158) -/

/-- FOLD completes after the last round. -/
theorem exec_fold_of_last {s : State} (h : s.engine.j = 64) :
    exec .fold s = .next (s.completeWith s.engine.foldRound) := by
  rw [exec_fold, execFold, if_pos h]

/-- FOLD at any other J ends with SEQUENCE (R225). -/
theorem exec_fold_of_ne {s : State} (h : s.engine.j ≠ 64) : exec .fold s = .next (s.failWith .sequence) := by
  rw [exec_fold, execFold, if_neg h]

/-- Settles O17: FOLD leaves J and R, so a second FOLD completes too and undoes the exclusive or. -/
theorem foldXorsRIntoV : Obligations.FoldXorsRIntoV := by
  unfold Obligations.FoldXorsRIntoV
  refine ⟨encode_fold, fun s h => ⟨_, exec_fold_of_last h, fun i => xorWords_getElem _ _ i.isLt, rfl,
    _, exec_fold_of_last (s := s.completeWith s.engine.foldRound) h, xorWords_xorWords _ _, rfl, h⟩,
    fun s h => exec_fold_of_ne h, fun s b hb hr hv hj => ⟨_, exec_fold_of_last hj, ?_⟩⟩
  rw [State.completeWith_engine, Engine.complete_v, Engine.foldRound_v, hr, hv, ← cf_eq, hb, cf_iv_paddedAbc]

/-! ### COMPRESS (R159) -/

/-- COMPRESS always completes. -/
theorem exec_compress_eq (s : State) : exec .compress s = .next (s.completeWith s.engine.compressBlock) := rfl

/-- What COMPRESS makes of the registers: each is written once, but for those it leaves. -/
theorem State.completeWith_compressBlock (s : State) : s.completeWith s.engine.compressBlock = { s with
    engine := { s.engine with
      w := expandWords s.engine.blk
      wp := primeWords (expandWords s.engine.blk)
      r := roundsTo 64 s.engine.v (expandWords s.engine.blk) (primeWords (expandWords s.engine.blk))
      j := 64
      v := cf s.engine.v s.engine.blk
      done := true, pending := none, progress := HashProgress.start }
    racing := [] } := by
  rw [Engine.compressBlock_eq, State.completeWith, Engine.complete]

/-- COMPRESS from a known V and BLK leaves a known V. -/
theorem exec_compress_v {s : State} {v : Vector Word 8} {b : Vector Word 16} (hv : s.engine.v = v)
    (hb : s.engine.blk = b) : ∃ t, exec .compress s = .next t ∧ t.engine.v = cf v b := by
  subst hv hb
  exact ⟨_, exec_compress_eq s, Engine.compressBlock_v s.engine⟩

/-- Settles O18: COMPRESS is CF, whose R is the state after its rounds; the values are those of CF. -/
theorem compressAppliesCF : Obligations.CompressAppliesCF := by
  unfold Obligations.CompressAppliesCF
  refine ⟨encode_compress, fun s => ?_, fun s hb hv => ?_, fun s hb hv => ?_, fun s hb hv => ?_⟩
  · rw [exec_compress_eq, State.completeWith_compressBlock]
    refine ⟨_, rfl, rfl, rfl, roundsTo_eq_foldl_finRange _ _ _, rfl, rfl, fun i => ?_, rfl⟩
    rw [cf_eq]
    exact xorWords_getElem _ _ i.isLt
  · exact cf_zero_zero ▸ exec_compress_v hv hb
  · exact cf_iv_zero ▸ exec_compress_v hv hb
  · exact cf_iv_paddedAbc ▸ exec_compress_v hv hb

/-! ### Commands one after the other (R160, R222, R262) -/

/-- What comes next when each command is submitted by a CTRL write and finished before the next. -/
def commandInputs (is : List Instr) (rest : List Input) : List Input :=
  is.flatMap (fun i => hostCmd i ++ [.engineFinish]) ++ rest

theorem commandInputs_cons (i : Instr) (is : List Instr) (rest : List Input) : commandInputs (i :: is) rest =
    .hostWrite 32 0x000 (encode i) :: .engineFinish :: commandInputs is rest := rfl

/-- The machine after commands that left the engine `e`, with other commands coming next: what is around the engine is
as before. -/
def State.afterCommands (s : State) (e : Engine) (is : List Instr) (rest : List Input) : State :=
  { s with engine := e, racing := [], inputs := commandInputs is rest }

@[simp] theorem State.afterCommands_engine (s : State) (e : Engine) (is : List Instr) (rest : List Input) :
    (s.afterCommands e is rest).engine = e := rfl

@[simp] theorem State.afterCommands_inputs (s : State) (e : Engine) (is : List Instr) (rest : List Input) :
    (s.afterCommands e is rest).inputs = commandInputs is rest := rfl

theorem State.afterCommands_idle (s : State) {e : Engine} (is : List Instr) (rest : List Input)
    (hr : s.resetAsserted = false) (hp : e.pending = none) : (s.afterCommands e is rest).Idle := ⟨hp, hr⟩

@[simp] theorem State.afterCommands_afterCommands (s : State) (e f : Engine) (is js : List Instr) (rest : List Input) :
    (s.afterCommands e is rest).afterCommands f js rest = s.afterCommands f js rest := rfl

/-- A CTRL write of a command's word while idle starts the command (R222). -/
theorem step_ctrl_write {s : State} {i : Instr} {rest : List Input} (hs : s.Idle)
    (hin : s.inputs = .hostWrite 32 0x000 (encode i) :: rest) :
    step s = .next (State.startCommand { s with inputs := rest } (encode i)) := by
  rw [step_of_input hin, State.perform, ← State.submit_encode]
  exact State.hostWrite_ctrl (s := { s with inputs := rest }) (encode i) hs

/-- A command that completes with the effect `f` takes two steps: its start and the engine's turn. -/
theorem run_command {s : State} {i : Instr} {is : List Instr} {rest : List Input} (f : Engine → Engine) (k : Nat)
    (hs : s.Idle) (hin : s.inputs = commandInputs (i :: is) rest)
    (hx : ∀ u : State, u.engine = s.engine.startCommand (encode i) →
      exec i u = .next (u.completeWith (f u.engine))) :
    Host.Core.run Sys2Proof.core (k + 2) s = Host.Core.run Sys2Proof.core k
      (s.afterCommands (f (s.engine.startCommand (encode i))).complete is rest) := by
  let u := State.startCommand { s with inputs := .engineFinish :: commandInputs is rest } (encode i)
  let v := State.startCommand { s with inputs := commandInputs is rest } (encode i)
  have finished : step u = .next (v.completeWith (f v.engine)) := calc
    step u = v.finishCommand := step_of_input (s := u) rfl
    _ = exec i v := State.finishCommand_eq_exec hs.2 rfl (decode_of_encode i)
    _ = .next (v.completeWith (f v.engine)) := hx v rfl
  exact (run_succ_of_step (k + 1) (step_ctrl_write hs hin)).trans (run_succ_of_step k finished)

/-! ### The step sequence of R160 -/

/-- The idle engine after EXPAND, LOADR and `n` rounds. -/
def Engine.afterRounds (e : Engine) (n : Nat) : Engine :=
  { e with
    w := expandWords e.blk
    wp := primeWords (expandWords e.blk)
    r := roundsTo n e.v (expandWords e.blk) (primeWords (expandWords e.blk))
    j := BitVec.ofNat 7 n
    done := true, err := false, errCode := 0, pending := none, progress := HashProgress.start }

theorem Engine.afterRounds_j_toNat (e : Engine) {n : Nat} (h : n ≤ 64) : (e.afterRounds n).j.toNat = n :=
  Nat.mod_eq_of_lt (show n < 2 ^ 7 by omega)

/-- LOADR after EXPAND leaves the engine before the first round. -/
theorem Engine.expand_loadr (e : Engine) (c d : Word) :
    ((e.startCommand c).expandBlock.complete.startCommand d).loadRound.complete = e.afterRounds 0 := by
  simp only [Engine.startCommand, Engine.expandBlock, Engine.complete, Engine.loadRound, Engine.afterRounds,
    roundsTo_zero, BitVec.ofNat_eq_ofNat]

/-- One more round. -/
theorem Engine.afterRounds_stepRound (e : Engine) (c : Word) {n : Nat} (h : n < 64) :
    ((e.afterRounds n).startCommand c).stepRound.complete = e.afterRounds (n + 1) := by
  have hj : (BitVec.ofNat 7 n).toNat = n := e.afterRounds_j_toNat (by omega)
  simp only [Engine.startCommand, Engine.stepRound, Engine.complete, Engine.afterRounds, hj, roundsTo_succ,
    BitVec.ofNat_add, BitVec.ofNat_eq_ofNat]

/-- FOLD after the 64 rounds leaves the engine as COMPRESS does. -/
theorem Engine.afterRounds_foldRound (e : Engine) (c d : Word) :
    ((e.afterRounds 64).startCommand c).foldRound.complete = (e.startCommand d).compressBlock.complete := by
  simp only [Engine.compressBlock_eq, Engine.startCommand, Engine.foldRound, Engine.complete, Engine.afterRounds, cf_eq,
    BitVec.ofNat_eq_ofNat]

/-- EXPAND and LOADR lead to the first round. -/
theorem run_expand_loadr {s : State} {is : List Instr} {rest : List Input} (k : Nat) (hs : s.Idle)
    (hin : s.inputs = commandInputs (.expand :: .loadr :: is) rest) :
    Host.Core.run Sys2Proof.core (k + 4) s =
      Host.Core.run Sys2Proof.core k (s.afterCommands (s.engine.afterRounds 0) is rest) := by
  have expanded := run_command Engine.expandBlock (k + 2) hs hin fun u _ => exec_expand u
  have loaded := run_command Engine.loadRound k
    (s.afterCommands_idle (.loadr :: is) rest hs.2
      (Engine.complete_pending (s.engine.startCommand (encode .expand)).expandBlock))
    (s.afterCommands_inputs _ _ _) fun u _ => exec_loadr_eq u
  rw [State.afterCommands_afterCommands, State.afterCommands_engine, Engine.expand_loadr] at loaded
  exact expanded.trans loaded

/-- ROUND leads to the next round. -/
theorem run_round {s : State} {is : List Instr} {rest : List Input} {n : Nat} (k : Nat) (hs : s.resetAsserted = false)
    (hn : n < 64) :
    Host.Core.run Sys2Proof.core (k + 2) (s.afterCommands (s.engine.afterRounds n) (.round :: is) rest) =
      Host.Core.run Sys2Proof.core k (s.afterCommands (s.engine.afterRounds (n + 1)) is rest) := by
  have hj : (s.engine.afterRounds n).j.toNat < 64 := (s.engine.afterRounds_j_toNat hn.le).trans_lt hn
  rw [← Engine.afterRounds_stepRound _ (encode .round) hn]
  exact run_command Engine.stepRound k ⟨rfl, hs⟩ rfl fun u hu => exec_round_of_lt (by rw [hu]; exact hj)

/-- `n` ROUND commands from round `m` on. -/
theorem run_rounds {s : State} (hs : s.resetAsserted = false) (is : List Instr) (rest : List Input) (k : Nat)
    {m n : Nat} (h : m + n ≤ 64) :
    Host.Core.run Sys2Proof.core (k + 2 * n)
        (s.afterCommands (s.engine.afterRounds m) (List.replicate n .round ++ is) rest) =
      Host.Core.run Sys2Proof.core k (s.afterCommands (s.engine.afterRounds (m + n)) is rest) := by
  induction n generalizing m with
  | zero => rfl
  | succ n ih =>
    have hnext : m + 1 + n = m + (n + 1) := by omega
    exact (run_round (k + 2 * n) hs (by omega)).trans (hnext ▸ ih (by omega))

/-- FOLD after the 64 rounds leaves the machine as COMPRESS does. -/
theorem run_fold {s : State} {is : List Instr} {rest : List Input} (k : Nat) (hs : s.resetAsserted = false) (c : Word) :
    Host.Core.run Sys2Proof.core (k + 2) (s.afterCommands (s.engine.afterRounds 64) (.fold :: is) rest) =
      Host.Core.run Sys2Proof.core k
        (s.afterCommands (s.engine.startCommand c).compressBlock.complete is rest) := by
  rw [← Engine.afterRounds_foldRound _ (encode .fold)]
  exact run_command Engine.foldRound k ⟨rfl, hs⟩ rfl fun u hu => exec_fold_of_last (by rw [hu]; rfl)

/-- Settles O19: EXPAND and LOADR lead to round 0, the rounds to round 64, and FOLD to the engine that COMPRESS leaves. -/
theorem stepSequenceEqualsCompress : Obligations.StepSequenceEqualsCompress := by
  unfold Obligations.StepSequenceEqualsCompress
  intro s rest hs
  have hr : s.resetAsserted = false := hs.2
  refine ⟨s.afterCommands (s.engine.startCommand (encode .compress)).compressBlock.complete [] rest, ?_, ?_, rfl, rfl,
    by simp, by simp⟩
  · have expanded := run_expand_loadr (s := { s with
      inputs := commandInputs (.expand :: .loadr :: (List.replicate 64 .round ++ [.fold])) rest }) 130 hs rfl
    have rounds := run_rounds hr [.fold] rest 2 (m := 0) (n := 64) (Nat.le_refl 64)
    have folded := run_fold (is := []) (rest := rest) 0 hr (encode .compress)
    exact expanded.trans (rounds.trans folded)
  · exact run_command (s := { s with inputs := _ }) Engine.compressBlock 0 hs rfl fun u _ => exec_compress_eq u

end Sys2Proof.Machine
end

section
/-! INIT as one equation of `exec`, the bytes a HASH reads and no others as what decides its data registers, and the
settled O13 and O25 (spec 44_driver.md R190 to R197). -/

namespace Sys2Proof.Machine

/-! ### INIT (R191) -/

/-- INIT always completes. -/
theorem exec_init_eq (s : State) : exec .init s = .next (s.completeWith s.engine.seedV) := rfl

/-- What INIT makes of the machine: V is the IV, and the command is complete. -/
theorem State.completeWith_seedV (s : State) : s.completeWith s.engine.seedV = { s with
    engine := { s.engine with v := iv, done := true, pending := none, progress := HashProgress.start }
    racing := [] } := rfl

/-- Settles O13: INIT completes from every state, and the digits are those of the model's IV. -/
theorem initSeedsChainingValue : Obligations.InitSeedsChainingValue := by
  unfold Obligations.InitSeedsChainingValue
  refine ⟨encode_init, fun s => ?_⟩
  rw [exec_init_eq, State.completeWith_seedV, iv]

/-! ### What decides the result of HASH (R197) -/

/-- The message read is the same where its length and each byte read are. -/
theorem State.messageBytes_congr {s s' : State} (hn : s.engine.msgLen = s'.engine.msgLen)
    (hb : ∀ i, i < s.engine.msgLen.toNat → s.byteAt (s.engine.msgAddr.toNat + i) (s.draws + i) =
      s'.byteAt (s'.engine.msgAddr.toNat + i) (s'.draws + i)) :
    s.messageBytes = s'.messageBytes := by
  rw [State.messageBytes, State.messageBytes, ← hn]
  exact List.map_congr_left fun i hi => hb i (List.mem_range.mp hi)

/-- Settles O25: both machines read the same message, and the registers after the last block are functions of the
padded message and its number of blocks alone. -/
theorem hashDependsOnlyOnBytesRead : Obligations.HashDependsOnlyOnBytesRead := by
  unfold Obligations.HashDependsOnlyOnBytesRead
  intro s s' hs hs' hn hr hr' hread
  have message : s.messageBytes = s'.messageBytes := State.messageBytes_congr hn fun i hi => (hread i hi).2.2
  have run := execHash_of_memory hs hr fun i hi => (hread i hi).1
  have run' := execHash_of_memory hs' hr' fun i hi => (hread i (hn ▸ hi)).2.1
  rw [← message, ← hn] at run'
  exact ⟨_, _, run, run', rfl, rfl, rfl, rfl, rfl, rfl⟩

end Sys2Proof.Machine
end

section
/-! The interrupt output over the words the host reads, the HASH that fails its range check, the start of a command, and
the settled O22, O27, O28 and O40 (spec 60_exceptions.md R222, R226, R234). -/

namespace Sys2Proof.Machine

/-! ### The interrupt output (R234) -/

/-- IRQ is asserted exactly by an enabled DONE or an enabled ERR. -/
theorem Engine.irq_iff (e : Engine) :
    e.irq = true ↔ (e.done = true ∧ e.doneIE = true) ∨ (e.err = true ∧ e.errIE = true) := by
  simp [Engine.irq]

/-- With DONE and ERR clear IRQ is deasserted, whatever is enabled. -/
theorem Engine.irq_of_status_clear {e : Engine} (hd : e.done = false) (he : e.err = false) : e.irq = false := by
  simp [Engine.irq, hd, he]

/-- With both enables clear IRQ is deasserted, whatever STATUS is. -/
theorem Engine.irq_of_disabled {e : Engine} (hd : e.doneIE = false) (he : e.errIE = false) : e.irq = false := by
  simp [Engine.irq, hd, he]

/-- Settles O40: the bits of STATUS and INTEN are the flags of IRQ, and each way to deassert it clears both of the flags
or both of the enables. -/
theorem irqFollowsStatusAndInten : Obligations.IrqFollowsStatusAndInten := by
  unfold Obligations.IrqFollowsStatusAndInten
  refine ⟨fun e => ?_, fun e c => Engine.irq_of_status_clear rfl rfl, Engine.irq_of_status_clear rfl rfl,
    fun e v hd he => Engine.irq_of_status_clear ?_ ?_, fun e v hd he => Engine.irq_of_disabled hd he, fun e b => rfl⟩
  · obtain ⟨-, hdone, herr, -⟩ := statusFieldLayout e
    obtain ⟨hdoneIE, herrIE, -⟩ := e.intenWord_fields
    rw [hdone, herr, hdoneIE, herrIE]
    exact e.irq_iff
  · rw [Engine.clearStatus_done, hd, Bool.not_true, Bool.and_false]
  · rw [Engine.clearStatus_err, he, Bool.not_true, Bool.and_false]

/-! ### HASH past the end of the message space (R226) -/

/-- HASH past the end of the message space fails before it looks at the platform. -/
theorem execHash_of_addrRange {s : State} (h : 2 ^ 32 < s.engine.msgAddr.toNat + s.engine.msgLen.toNat) :
    execHash s = .next (s.failWith .addrRange) := by
  have outOfRange : s.engine.rangeOk = false := by
    rw [Bool.eq_false_iff, ne_eq, Engine.rangeOk_iff]
    exact Nat.not_le.mpr h
  rw [execHash, outOfRange, Bool.not_false, if_pos rfl]

/-- Settles O22: `State.failWith` writes STATUS alone and ends the race window. -/
theorem hashAddrRange : Obligations.HashAddrRange := by
  unfold Obligations.HashAddrRange
  exact fun s h => execHash_of_addrRange h

/-! ### The start of a command (R222) -/

/-- The word of a command, submitted through its number, is started with the engine's turn coming next. -/
theorem State.withFetchWord_encode (s : State) (i : Instr) : s.withFetchWord 32 (encode i).toNat =
    { s.startCommand (encode i) with inputs := .engineFinish :: s.inputs, resetAsserted := false } := by
  rw [State.withFetchWord, Nat.mod_eq_of_lt (encode i).isLt, if_pos (encode i).isLt, BitVec.ofNat_toNat,
    BitVec.setWidth_eq, State.withCommandWord, decode_of_encode]

/-- Settles O27: the prepared state is the started command with the engine's turn as its next input. -/
theorem fetchWordRunsThatCommandNext : Obligations.FetchWordRunsThatCommandNext := by
  unfold Obligations.FetchWordRunsThatCommandNext
  intro s i
  rw [State.withFetchWord_encode, step_of_input rfl]
  exact State.finishCommand_eq_exec rfl rfl (decode_of_encode i)

/-- Settles O28: the write starts the command, which writes STATUS and the pending word alone. -/
theorem ctrlWriteStartsCommand : Obligations.CtrlWriteStartsCommand := by
  unfold Obligations.CtrlWriteStartsCommand
  exact fun s i rest hs hin => ⟨_, step_ctrl_write hs hin, rfl, rfl⟩

end Sys2Proof.Machine
end

section
/-! Reset as an input, and what a machine held in reset can still do: the settled O43 (spec 70_reset_and_hazards.md R250,
R251). -/

namespace Sys2Proof.Machine

/-! ### The machine while reset is asserted -/

/-- A host access in reset is refused and answers no next state (R251). -/
theorem State.access_ne_next_of_reset {s t : State} {o : Host.Outcome State Fault Refusal}
    (hr : s.resetAsserted = true) :
    (if s.resetAsserted then .refused .accessDuringReset else o) ≠ .next t := by
  rw [if_pos hr]
  nofun

/-- No HASH runs in reset. -/
theorem State.hashRunning_of_reset {s : State} (hr : s.resetAsserted = true) : s.hashRunning = false := by
  simp [State.hashRunning, hr]

/-- HASH reads no byte in reset. -/
theorem State.advanceRead_of_reset {s : State} (hr : s.resetAsserted = true) : s.advanceRead = .next s := by
  rw [State.advanceRead, State.hashRunning_of_reset hr, Bool.not_false, if_pos rfl]

/-- HASH compresses no block in reset. -/
theorem State.advanceCompress_of_reset {s : State} (hr : s.resetAsserted = true) : s.advanceCompress = s := by
  rcases s.advanceCompress_cases with h | ⟨hrun, -⟩
  · exact h
  · rw [State.hashRunning_of_reset hr] at hrun
    exact absurd hrun Bool.false_ne_true

/-- An input performed in reset leaves the engine as it is, or resets it once more, and issues no master-port read. -/
theorem State.perform_of_reset {s t : State} {x : Input} (hr : s.resetAsserted = true) (h : s.perform x = .next t) :
    (t.engine = s.engine ∨ t.engine = Engine.reset) ∧ t.portReads = s.portReads := by
  cases x with
  | hostRead | hostWrite | wait => exact absurd h (State.access_ne_next_of_reset hr)
  | store g a b =>
    cases h
    exact ⟨.inl (s.storeByte_engine g a b), s.storeByte_portReads g a b⟩
  | makeVisible | releaseReset =>
    cases h
    exact ⟨.inl rfl, rfl⟩
  | assertReset =>
    cases h
    exact ⟨.inr rfl, rfl⟩
  | engineRead =>
    cases (State.advanceRead_of_reset hr).symm.trans h
    exact ⟨.inl rfl, rfl⟩
  | engineCompress =>
    cases h
    rw [State.advanceCompress_of_reset hr]
    exact ⟨.inl rfl, rfl⟩
  | engineFinish =>
    cases (State.finishCommand_rest (.inl hr)).symm.trans h
    exact ⟨.inl rfl, rfl⟩

/-- A step in reset keeps an engine that holds its reset values, and issues no master-port read. -/
theorem step_of_reset {s t : State} (hr : s.resetAsserted = true) (he : s.engine = Engine.reset)
    (h : step s = .next t) : t.engine = Engine.reset ∧ t.portReads = s.portReads := by
  cases hin : s.inputs with
  | nil =>
    rw [step_of_no_input hin] at h
    cases (State.finishCommand_rest (.inl hr)).symm.trans h
    exact ⟨he, rfl⟩
  | cons x rest =>
    rw [step_of_input hin] at h
    obtain ⟨hengine, hreads⟩ := State.perform_of_reset (s := { s with inputs := rest }) hr h
    exact ⟨hengine.elim (·.trans he) id, hreads⟩

/-- Settles O43: asserting and releasing reset are inputs of their own (log 12), and no other input performed in reset
reaches the engine. -/
theorem resetFromAnyState : Obligations.ResetFromAnyState := by
  unfold Obligations.ResetFromAnyState
  refine ⟨fun s rest hin => ?_, fun s t => step_of_reset, fun s rest hin => step_of_input hin⟩
  exact ⟨_, step_of_input hin, rfl, Engine.irq_of_status_clear rfl rfl, rfl, fun _ => rfl, rfl⟩

end Sys2Proof.Machine
end
